-- ==== Sys2Proof/Word.lean ====
section
/-! DEFINITION. The value types of the CORE: data is 8 bits wide, instruction words, I, PC and the
stack slots are 16 bits wide (spec/00_scope.md R1, R4, R6; spec/10_state.md R20). All values are unsigned (R6). -/

namespace Sys2Proof

/-- A general register, a memory cell, a timer, an immediate `kk` (R4, R20). -/
abbrev Byte := BitVec 8

/-- An instruction word, I, PC, a call-stack slot (R20, R75). -/
abbrev Word := BitVec 16

/-- The number of a general register: a 4-bit field, so every value names a real register (R21). -/
abbrev Reg := Fin 16

/-- The index of a logical key, 0 to 15 (R31). -/
abbrev Key := Fin 16

/-- VF, register 15, the only flag (R22). -/
abbrev vF : Reg := 15

/-- V0, the register Bnnn reads without a field (R21, R125). -/
abbrev v0 : Reg := 0

end Sys2Proof
end

