-- ==== Sys2Proof/Syntax.lean ====
section
/-! DEFINITION. The 34 instructions, one constructor per row of the opcode map (spec/30_encoding.md R80), in the
document's order. The hex pattern is the normative name of an instruction (R85). -/

namespace Sys2Proof

/-- One constructor per row of R80, with the operand fields of its format (R77). `x` and `y` are register
numbers, `kk` an immediate byte, `nnn` a 12-bit address, `n` a count of sprite rows (checked in WellFormed). -/
inductive Instr where
  /-- 00E0 `CLS` (R179) -/
  | cls
  /-- 00EE `RET` (R118) -/
  | ret
  /-- 1nnn `JP nnn` (R119) -/
  | jp (nnn : BitVec 12)
  /-- 2nnn `CALL nnn` (R120) -/
  | call (nnn : BitVec 12)
  /-- 3xkk `SE Vx, kk` (R121) -/
  | seByte (x : Reg) (kk : Byte)
  /-- 4xkk `SNE Vx, kk` (R122) -/
  | sneByte (x : Reg) (kk : Byte)
  /-- 5xy0 `SE Vx, Vy` (R123) -/
  | seReg (x y : Reg)
  /-- 6xkk `LD Vx, kk` (R137) -/
  | ldByte (x : Reg) (kk : Byte)
  /-- 7xkk `ADD Vx, kk` (R138) -/
  | addByte (x : Reg) (kk : Byte)
  /-- 8xy0 `LD Vx, Vy` (R139) -/
  | ldReg (x y : Reg)
  /-- 8xy1 `OR Vx, Vy` (R140) -/
  | orReg (x y : Reg)
  /-- 8xy2 `AND Vx, Vy` (R141) -/
  | andReg (x y : Reg)
  /-- 8xy3 `XOR Vx, Vy` (R142) -/
  | xorReg (x y : Reg)
  /-- 8xy4 `ADD Vx, Vy` (R143) -/
  | addReg (x y : Reg)
  /-- 8xy5 `SUB Vx, Vy` (R144) -/
  | sub (x y : Reg)
  /-- 8xy6 `SHR Vx` (R145); `y` is encoded and ignored (R81) -/
  | shr (x y : Reg)
  /-- 8xy7 `SUBN Vx, Vy` (R146) -/
  | subn (x y : Reg)
  /-- 8xyE `SHL Vx` (R147); `y` is encoded and ignored (R81) -/
  | shl (x y : Reg)
  /-- 9xy0 `SNE Vx, Vy` (R124) -/
  | sneReg (x y : Reg)
  /-- Annn `LD I, nnn` (R161) -/
  | ldI (nnn : BitVec 12)
  /-- Bnnn `JP V0, nnn` (R125) -/
  | jpV0 (nnn : BitVec 12)
  /-- Cxkk `RND Vx, kk` (R148) -/
  | rnd (x : Reg) (kk : Byte)
  /-- Dxyn `DRW Vx, Vy, n` (R180) -/
  | drw (x y : Reg) (n : Nat)
  /-- Ex9E `SKP Vx` (R193) -/
  | skp (x : Reg)
  /-- ExA1 `SKNP Vx` (R194) -/
  | sknp (x : Reg)
  /-- Fx07 `LD Vx, DT` (R197) -/
  | ldVxDt (x : Reg)
  /-- Fx0A `LD Vx, K` (R195) -/
  | ldVxK (x : Reg)
  /-- Fx15 `LD DT, Vx` (R198) -/
  | ldDtVx (x : Reg)
  /-- Fx18 `LD ST, Vx` (R199) -/
  | ldStVx (x : Reg)
  /-- Fx1E `ADD I, Vx` (R162) -/
  | addI (x : Reg)
  /-- Fx29 `LD F, Vx` (R163) -/
  | ldF (x : Reg)
  /-- Fx33 `LD B, Vx` (R164) -/
  | ldB (x : Reg)
  /-- Fx55 `LD [I], Vx` (R165) -/
  | ldMemVx (x : Reg)
  /-- Fx65 `LD Vx, [I]` (R166) -/
  | ldVxMem (x : Reg)
  deriving DecidableEq, Repr

end Sys2Proof
end

