-- ==== Sys2Proof/Decode.lean ====
section
/-! DEFINITION. Decoding and encoding (spec/30_encoding.md). A word selects the instruction of the row whose mask and
match it meets (R79, R80); a word that meets none is reserved and rejected by name (R82). The encoder is R88's. -/

namespace Sys2Proof

/-- `op[hi:lo]`, the unsigned value of bits `hi` down to `lo` (spec/00_scope.md R6). -/
def bitsOf (op : Word) (hi lo : Nat) : Nat := op.toNat / 2 ^ lo % 2 ^ (hi + 1 - lo)

/-- Field `x`, `op[11:8]` (R76). -/
def fieldX (op : Word) : Reg := ⟨bitsOf op 11 8, Nat.mod_lt _ (by decide)⟩

/-- Field `y`, `op[7:4]` (R76). -/
def fieldY (op : Word) : Reg := ⟨bitsOf op 7 4, Nat.mod_lt _ (by decide)⟩

/-- Field `n`, `op[3:0]` (R76). -/
def fieldN (op : Word) : Nat := bitsOf op 3 0

/-- Field `kk`, `op[7:0]` (R76). -/
def fieldKk (op : Word) : Byte := BitVec.ofNat 8 (bitsOf op 7 0)

/-- Field `nnn`, `op[11:0]` (R76). -/
def fieldNnn (op : Word) : BitVec 12 := BitVec.ofNat 12 (bitsOf op 11 0)

/-- One row of the opcode map: the bits it fixes, their value, and the instruction it builds from a word (R80). -/
structure Row where
  mask : Word
  pattern : Word
  build : Word → Instr

/-- R79: a word selects a row when `op & mask = match`. -/
def Row.selects (r : Row) (op : Word) : Bool := op &&& r.mask == r.pattern

/-- The rows of groups 0 to 7 (R80). -/
def rowsFlow : List Row :=
  [⟨0xFFFF, 0x00E0, fun _ => .cls⟩,
   ⟨0xFFFF, 0x00EE, fun _ => .ret⟩,
   ⟨0xF000, 0x1000, fun op => .jp (fieldNnn op)⟩,
   ⟨0xF000, 0x2000, fun op => .call (fieldNnn op)⟩,
   ⟨0xF000, 0x3000, fun op => .seByte (fieldX op) (fieldKk op)⟩,
   ⟨0xF000, 0x4000, fun op => .sneByte (fieldX op) (fieldKk op)⟩,
   ⟨0xF00F, 0x5000, fun op => .seReg (fieldX op) (fieldY op)⟩,
   ⟨0xF000, 0x6000, fun op => .ldByte (fieldX op) (fieldKk op)⟩,
   ⟨0xF000, 0x7000, fun op => .addByte (fieldX op) (fieldKk op)⟩]

/-- The rows of groups 8 and 9 (R80). -/
def rowsAlu : List Row :=
  [⟨0xF00F, 0x8000, fun op => .ldReg (fieldX op) (fieldY op)⟩,
   ⟨0xF00F, 0x8001, fun op => .orReg (fieldX op) (fieldY op)⟩,
   ⟨0xF00F, 0x8002, fun op => .andReg (fieldX op) (fieldY op)⟩,
   ⟨0xF00F, 0x8003, fun op => .xorReg (fieldX op) (fieldY op)⟩,
   ⟨0xF00F, 0x8004, fun op => .addReg (fieldX op) (fieldY op)⟩,
   ⟨0xF00F, 0x8005, fun op => .sub (fieldX op) (fieldY op)⟩,
   ⟨0xF00F, 0x8006, fun op => .shr (fieldX op) (fieldY op)⟩,
   ⟨0xF00F, 0x8007, fun op => .subn (fieldX op) (fieldY op)⟩,
   ⟨0xF00F, 0x800E, fun op => .shl (fieldX op) (fieldY op)⟩,
   ⟨0xF00F, 0x9000, fun op => .sneReg (fieldX op) (fieldY op)⟩]

/-- The rows of groups A to E (R80). -/
def rowsMid : List Row :=
  [⟨0xF000, 0xA000, fun op => .ldI (fieldNnn op)⟩,
   ⟨0xF000, 0xB000, fun op => .jpV0 (fieldNnn op)⟩,
   ⟨0xF000, 0xC000, fun op => .rnd (fieldX op) (fieldKk op)⟩,
   ⟨0xF000, 0xD000, fun op => .drw (fieldX op) (fieldY op) (fieldN op)⟩,
   ⟨0xF0FF, 0xE09E, fun op => .skp (fieldX op)⟩,
   ⟨0xF0FF, 0xE0A1, fun op => .sknp (fieldX op)⟩]

/-- The rows of group F (R80). -/
def rowsF : List Row :=
  [⟨0xF0FF, 0xF007, fun op => .ldVxDt (fieldX op)⟩,
   ⟨0xF0FF, 0xF00A, fun op => .ldVxK (fieldX op)⟩,
   ⟨0xF0FF, 0xF015, fun op => .ldDtVx (fieldX op)⟩,
   ⟨0xF0FF, 0xF018, fun op => .ldStVx (fieldX op)⟩,
   ⟨0xF0FF, 0xF01E, fun op => .addI (fieldX op)⟩,
   ⟨0xF0FF, 0xF029, fun op => .ldF (fieldX op)⟩,
   ⟨0xF0FF, 0xF033, fun op => .ldB (fieldX op)⟩,
   ⟨0xF0FF, 0xF055, fun op => .ldMemVx (fieldX op)⟩,
   ⟨0xF0FF, 0xF065, fun op => .ldVxMem (fieldX op)⟩]

/-- The opcode map, 34 rows in the document's order (R80). -/
def opcodeRows : List Row := rowsFlow ++ rowsAlu ++ rowsMid ++ rowsF

/-- Why a sequence of bytes is no instruction. -/
inductive DecodeError where
  /-- The word matches no row: a reserved encoding (R82). -/
  | reserved (op : Word)
  /-- Fewer than the two bytes of an instruction (R75). -/
  | truncated
  deriving DecidableEq, Repr

/-- The instruction of the first of `rows` that selects `op`. The rows' match sets are disjoint (R87), so the
order does not matter. -/
def selectRow : List Row → Word → Option Instr
  | [], _ => none
  | r :: rs, op => if r.selects op then some (r.build op) else selectRow rs op

/-- Decode one instruction word: exactly one operation, or none (R79, R82). -/
def decodeWord (op : Word) : Except DecodeError Instr :=
  match selectRow opcodeRows op with
  | some i => .ok i
  | none => .error (.reserved op)

/-- The word of two consecutive bytes, high byte first (spec/20_memory.md R56). -/
def wordOf (hi lo : Byte) : Word := BitVec.ofNat 16 (hi.toNat * 256 + lo.toNat)

/-- Decode the instruction at the head of a byte sequence, with the bytes after it (R75). -/
def decode : List Byte → Except DecodeError (Instr × List Byte)
  | hi :: lo :: rest =>
    match decodeWord (wordOf hi lo) with
    | .ok i => .ok (i, rest)
    | .error e => .error e
  | [_] | [] => .error .truncated

/-! The encoder, format by format (R77, R88). -/

/-- Format A: `match | nnn`. -/
def encA (m : Word) (nnn : BitVec 12) : Word := m ||| nnn.setWidth 16

/-- Format XK: `match | (x << 8) | kk`. -/
def encXK (m : Word) (x : Reg) (kk : Byte) : Word := m ||| (BitVec.ofNat 16 x.val <<< 8) ||| kk.setWidth 16

/-- Format XYN: `match | (x << 8) | (y << 4) | n`. -/
def encXYN (m : Word) (x y : Reg) (n : Nat) : Word :=
  m ||| (BitVec.ofNat 16 x.val <<< 8) ||| (BitVec.ofNat 16 y.val <<< 4) ||| BitVec.ofNat 16 n

/-- Format XY: `match | (x << 8) | (y << 4)`, the subop in `match`. -/
def encXY (m : Word) (x y : Reg) : Word := m ||| (BitVec.ofNat 16 x.val <<< 8) ||| (BitVec.ofNat 16 y.val <<< 4)

/-- Format XS: `match | (x << 8)`, the subop in `match`. -/
def encXS (m : Word) (x : Reg) : Word := m ||| (BitVec.ofNat 16 x.val <<< 8)

/-- The word of an instruction (R88). Meaningful for a well-formed instruction. -/
def encodeWord : Instr → Word
  | .cls => 0x00E0
  | .ret => 0x00EE
  | .jp nnn => encA 0x1000 nnn
  | .call nnn => encA 0x2000 nnn
  | .seByte x kk => encXK 0x3000 x kk
  | .sneByte x kk => encXK 0x4000 x kk
  | .seReg x y => encXY 0x5000 x y
  | .ldByte x kk => encXK 0x6000 x kk
  | .addByte x kk => encXK 0x7000 x kk
  | .ldReg x y => encXY 0x8000 x y
  | .orReg x y => encXY 0x8001 x y
  | .andReg x y => encXY 0x8002 x y
  | .xorReg x y => encXY 0x8003 x y
  | .addReg x y => encXY 0x8004 x y
  | .sub x y => encXY 0x8005 x y
  | .shr x y => encXY 0x8006 x y
  | .subn x y => encXY 0x8007 x y
  | .shl x y => encXY 0x800E x y
  | .sneReg x y => encXY 0x9000 x y
  | .ldI nnn => encA 0xA000 nnn
  | .jpV0 nnn => encA 0xB000 nnn
  | .rnd x kk => encXK 0xC000 x kk
  | .drw x y n => encXYN 0xD000 x y n
  | .skp x => encXS 0xE09E x
  | .sknp x => encXS 0xE0A1 x
  | .ldVxDt x => encXS 0xF007 x
  | .ldVxK x => encXS 0xF00A x
  | .ldDtVx x => encXS 0xF015 x
  | .ldStVx x => encXS 0xF018 x
  | .addI x => encXS 0xF01E x
  | .ldF x => encXS 0xF029 x
  | .ldB x => encXS 0xF033 x
  | .ldMemVx x => encXS 0xF055 x
  | .ldVxMem x => encXS 0xF065 x

/-- `op[15:8]` (R88). -/
def highByte (op : Word) : Byte := BitVec.ofNat 8 (bitsOf op 15 8)

/-- `op[7:0]` (R88). -/
def lowByte (op : Word) : Byte := BitVec.ofNat 8 (bitsOf op 7 0)

/-- The bytes of a word as memory holds them: `op[15:8]` at the lower address (R88, R56). -/
def bytesOf (op : Word) : List Byte := [highByte op, lowByte op]

/-- The bytes of an instruction (R88). -/
def encode (i : Instr) : List Byte := bytesOf (encodeWord i)

/-- The word that a row of the opcode table names by its low `nbits` bits, every bit above them 0. -/
def tableWord (nbits w : Nat) : Word := BitVec.ofNat 16 (w % 2 ^ nbits)

/-- The instruction this decoder reads from a word numbered as spec/opcode_table.json numbers it: the word is laid
out high byte first and given to `decode`. -/
def decodeTableWord (nbits w : Nat) : Option Instr :=
  match decode (bytesOf (tableWord nbits w)) with
  | .ok (i, _) => some i
  | .error _ => none

end Sys2Proof
end

