-- ==== Sys2Proof/Config.lean ====
section
/-! DEFINITION. What is fixed for the machine (spec/00_scope.md R4), the parameters the spec leaves open
(R5) at the values this model runs with, and the free values that nothing in Lean can evaluate. -/

namespace Sys2Proof.Config

/-- Bytes of memory, addresses 0x000 to 0xFFF (R4, R50). -/
abbrev memSize : Nat := 4096

/-- First byte of the font (R4). -/
abbrev fontBase : Nat := 0x000

/-- Bytes of the font: 16 glyphs of 5 bytes (R4). -/
abbrev fontSize : Nat := 80

/-- First byte of the loaded program and reset value of PC (R4, R36). -/
abbrev progBase : Nat := 0x200

/-- Largest program length (R4, R242). -/
abbrev progMax : Nat := 3584

/-- Call-stack slots (R4, R28). -/
abbrev stackSlots : Nat := 16

/-- `FONT`: the spec's default table, from general knowledge (spec/70_reset_and_hazards.md R243, D9, G4).
PRESUMED, unsafe for a claim about the pixels of a glyph: log 1. The loader takes the font as an argument. -/
def fontBytes : List Byte :=
  [0xF0, 0x90, 0x90, 0x90, 0xF0] ++ [0x20, 0x60, 0x20, 0x20, 0x70] ++
  [0xF0, 0x10, 0xF0, 0x80, 0xF0] ++ [0xF0, 0x10, 0xF0, 0x10, 0xF0] ++
  [0x90, 0x90, 0xF0, 0x10, 0x10] ++ [0xF0, 0x80, 0xF0, 0x10, 0xF0] ++
  [0xF0, 0x80, 0xF0, 0x90, 0xF0] ++ [0xF0, 0x10, 0x20, 0x40, 0x40] ++
  [0xF0, 0x90, 0xF0, 0x90, 0xF0] ++ [0xF0, 0x90, 0xF0, 0x10, 0xF0] ++
  [0xF0, 0x90, 0xF0, 0x90, 0x90] ++ [0xE0, 0x90, 0xE0, 0x90, 0xE0] ++
  [0xF0, 0x80, 0x80, 0x80, 0xF0] ++ [0xE0, 0x90, 0x90, 0x90, 0xE0] ++
  [0xF0, 0x80, 0xF0, 0x80, 0xF0] ++ [0xF0, 0x80, 0xF0, 0x80, 0x80]

/-- The 80 bytes of a font area (R4, R5). -/
abbrev Font := Vector Byte fontSize

/-- The default `FONT` (R243). -/
def font : Font := ⟨fontBytes.toArray, rfl⟩

/-- `RESET0` (R5; spec/10_state.md R37, D8): the reset value of every piece of state the document gives none for.
`mem a` is the cell at `a` where neither font nor program is loaded. SP, PC, the screen and FAULT are not among
them: their reset values are given or forced (R36, R37). -/
structure Reset0 where
  v : Vector Byte 16
  i : Word
  dt : Byte
  st : Byte
  stack : Vector Word 16
  mem : Nat → Byte
  key : Vector Bool 16

/-- The spec's chosen `RESET0`: zero, all keys up (R37, D8). DESIGN CHOICE, unsafe: log 2. -/
def reset0 : Reset0 where
  v := Vector.replicate 16 0
  i := 0
  dt := 0
  st := 0
  stack := Vector.replicate 16 0
  mem := fun _ => 0
  key := Vector.replicate 16 false

/-- The parameters of R5 that fix a machine instance: what Reset loads beside the program. Of the others, `random8` is
below, and `SCHEDULE` and `END_OF_RUN` are arguments of `runSchedule` and `GoodRun`. -/
structure Params where
  /-- `FONT` (R243, D9). -/
  font : Font
  /-- `RESET0` (R37, D8). -/
  reset0 : Reset0

/-- The spec's default parameters (R37, R243; log 1, log 2). -/
def defaults : Params := ⟨font, reset0⟩

/-- What an unlisted address reads as: the byte address `a` holds after a Reset with the default parameters and no
program (R36, R37, R51; log 26). -/
def resetByte (a : Nat) : Byte :=
  if a < fontSize then fontBytes.getD a 0 else reset0.mem a

/-- `random8()`: the byte the outside supplies for the `n`-th Cxkk (spec/42_register_alu.md R149,
spec/40_step_cycle.md R109, D13). A free value with no body: no generator, seed or distribution. Log 3. -/
opaque random8 : Nat → Byte

end Sys2Proof.Config
end

