-- ==== Sys2Proof/Machine/State.lean ====
section
/-! DEFINITION. The complete architectural state (spec/10_state.md R20), the fault kinds (spec/60_exceptions.md R210),
the refusals of this model, and the state after Reset with an empty program (R36, R37). Plain data only. -/

namespace Sys2Proof.Machine

/-- The fault kinds of R210, in its order, with the info R210 attaches (R217: for diagnosis only). A fault ends the
run (R211). All are safe: the model stops where the spec says the machine stops. -/
inductive Fault where
  /-- Code 1. Raised by the fetch, Dxyn, Fx33, Fx55 and Fx65 for an address of 4096 or more (R212). Safe. -/
  | outOfBoundsMemoryAccess (addr : Nat)
  /-- Code 2. Raised by the bounds-checked register accessors; no Step forms such an index (R215, R21). Safe. -/
  | invalidRegisterIndex
  /-- Code 3. Raised by Reset for a program of more than 3584 bytes (R215, R242). Safe. -/
  | programTooLarge (length : Nat)
  /-- Code 4. Raised by 2nnn when SP = 16 (R213). Safe. -/
  | stackOverflow
  /-- Code 5. Raised by 00EE when SP = 0 (R213). Safe. -/
  | stackUnderflow
  /-- Code 6, the spec's own. Raised by a Step that fetches a reserved encoding (R214). Held by the latch under this
  name; the Step itself ends in the refusal of the same name, as R214 asks. Safe. -/
  | illegalInstruction (op : Word)
  deriving DecidableEq, Repr, Inhabited

/-- Why the model gives no next state where the hardware has no fault of its own. All are safe: nothing is claimed. -/
inductive Refusal where
  /-- Raised by an arm of `exec` whose instruction has no meaning yet. Safe. No arm does. -/
  | notModelled (mnemonic : String)
  /-- Raised by a Step that fetches a reserved encoding: the document gives the word no effect, the spec adds the
  fault IllegalInstruction and asks to file it here (R82, R214, U3). Safe: log 5. -/
  | illegalInstruction (op : Word)
  /-- Raised by every transaction but Reset when FAULT is not none: none is defined (R111, R216). Safe: log 6. -/
  | runIsOver (latched : Fault)
  /-- Raised by 2nnn and 00EE when SP is above 16, which no run reaches (R25, R38): there is no such slot. Safe: log 7. -/
  | depthOutOfRange (sp : Byte)
  deriving DecidableEq, Repr, Inhabited

/-- What an operation or a transaction answers. -/
abbrev Result (α : Type) := Host.Outcome α Fault Refusal

/-- MEM (R29) as the cells that differ from the reset contents, addresses strictly rising (`Memory.wf`). -/
abbrev Memory := List Host.Cell

/-- PIX (R30): 32 rows of 64 pixels. -/
abbrev Screen := Vector (Vector Bool 64) 32

/-- The state of R20, all of it, and the model's own counter of random draws. -/
structure State where
  /-- V0 to VF (R21, R22). -/
  v : Vector Byte 16
  /-- I, the index register (R23). -/
  i : Word
  /-- PC (R24). -/
  pc : Word
  /-- SP, the stack-depth counter, 0 to 16 in every state a run reaches (R25). -/
  sp : Byte
  /-- DT, the delay timer (R26). -/
  dt : Byte
  /-- ST, the sound timer (R27). -/
  st : Byte
  /-- STACK (R28). -/
  stack : Vector Word 16
  /-- MEM (R29). -/
  mem : Memory
  /-- PIX (R30). -/
  pix : Screen
  /-- KEY, true = down (R31). -/
  key : Vector Bool 16
  /-- FAULT, the fault latch (R32). -/
  fault : Option Fault
  /-- NOT the spec's state: how many random bytes Cxkk has drawn; it numbers the free values
  `Config.random8` (R34, R109). DESIGN CHOICE: log 4. -/
  draws : Nat
  deriving DecidableEq, Repr, Inhabited

/-- A screen with every pixel 0: a fresh grid, and what `ClearScreen` leaves (R36, R176). -/
def Screen.blank : Screen := Vector.replicate 32 (Vector.replicate 64 false)

/-- The state a Reset builds from nothing, but for the memory it loads: PC and the clear screen as R36 gives them, SP
and FAULT as R37 has them, every other register at the parameter `RESET0` (R37, R241). -/
def State.fresh (r : Config.Reset0) (mem : Memory) : State where
  v := r.v
  i := r.i
  pc := BitVec.ofNat 16 Config.progBase
  sp := 0
  dt := r.dt
  st := r.st
  stack := r.stack
  mem := mem
  pix := Screen.blank
  key := r.key
  fault := none
  draws := 0

/-- The state right after Reset with an empty program and the spec's default parameters (R36, R37; DESIGN CHOICE,
unsafe: log 2): memory with nothing listed. -/
def State.reset : State := State.fresh Config.reset0 []

/-- What a fault leaves beside the latch: "every other piece of state is unspecified" (R216, U5). A free state with
no body: nothing can be proved of it. Here and not in Config.lean because its type is `State`. Log 6. -/
opaque Config.afterFault : Fault → State → State

end Sys2Proof.Machine
end

