-- ==== Sys2Proof/Machine/Flags.lean ====
section
/-! DEFINITION. The flag and result of every instruction that writes VF (spec/10_state.md R22, spec/42_register_alu.md
R150). All values are unsigned; both comparisons are strict. -/

namespace Sys2Proof.Machine

/-- A flag as VF holds it: 1 or 0 (R22). -/
def flagByte (f : Bool) : Byte := if f then 1 else 0

/-- 8xy4: the exact sum is above 255 (R143). -/
def carry (a b : Byte) : Bool := 255 < a.toNat + b.toNat

/-- 8xy5 and 8xy7: the first operand is strictly above the second (R144, R146, R150). -/
def isAbove (a b : Byte) : Bool := b.toNat < a.toNat

/-- 8xy6: the bit shifted out, bit 0 (R145). -/
def lowBit (a : Byte) : Bool := a.getLsbD 0

/-- 8xyE: the bit shifted out, bit 7 (R147). -/
def highBit (a : Byte) : Bool := a.getLsbD 7

end Sys2Proof.Machine
end

