-- ==== Sys2Proof/Machine/Operands.lean ====
section
/-! DEFINITION. The operand forms (spec/30_encoding.md R78): every immediate is zero-extended and unscaled, a register
operand is the whole 8-bit value, and the one memory operand is "base I plus byte offset" (spec/43_index_and_memory.md
R160), an exact sum (spec/20_memory.md R55). -/

namespace Sys2Proof.Machine

/-- `zext_16` of a byte (spec/00_scope.md R7). -/
def zext16 (b : Byte) : Word := BitVec.ofNat 16 b.toNat

/-- `zext_16(nnn)`, so the top four bits are 0 (R78). -/
def address (nnn : BitVec 12) : Word := BitVec.ofNat 16 nnn.toNat

/-- The address of byte `k` of the block at I: the exact sum, no wrap (R55, R160; D6, log 11). -/
def blockAddress (s : State) (k : Nat) : Nat := s.i.toNat + k

/-- The target of Bnnn, `zext_16(nnn) + zext_16(V0)` (R125). -/
def offsetTarget (nnn : BitVec 12) (b : Byte) : Word := address nnn + zext16 b

/-- `trunc_16(I + zext_16(a))` (R162). -/
def indexPlus (i : Word) (a : Byte) : Word := i + zext16 a

/-- The glyph base `zext_16(a) * 5`, formed in 16 bits and not masked (R163; D5, log 10). -/
def glyphAddress (a : Byte) : Word := BitVec.ofNat 16 (a.toNat * 5)

/-- The hundreds, tens and ones digit of a byte, most significant first (R164). -/
def decimalDigits (a : Byte) : List Byte :=
  [BitVec.ofNat 8 (a.toNat / 100), BitVec.ofNat 8 (a.toNat / 10 % 10), BitVec.ofNat 8 (a.toNat % 10)]

/-- The number of a key as a register value (R195). -/
def keyNumber (k : Key) : Byte := BitVec.ofNat 8 k.val

end Sys2Proof.Machine
end

