-- ==== Sys2Proof/Machine/Ops.lean ====
section
/-! DEFINITION. The named operations over the state: raising a fault, registers, memory, call stack, screen and
keyboard. The meanings of the instructions are written over these and nothing else. -/

namespace Sys2Proof.Machine

/-! Sequencing and faults. -/

/-- Run `f` on what `x` answers; a fault or a refusal ends the whole ("nothing after `raise` runs", R7, R211). -/
def andThen {α β : Type} (x : Result α) (f : α → Result β) : Result β :=
  match x with
  | .next a => f a
  | .fault r => .fault r
  | .refused r => .refused r

/-- `raise F(info)` (spec/60_exceptions.md R211, R220): the transaction ends with the fault; there is no handler, no
vector and no saved state. IllegalInstruction ends in the refusal of its name (R214; log 5). -/
def raise {α : Type} (f : Fault) : Result α :=
  match f with
  | .outOfBoundsMemoryAccess a => .fault (.outOfBoundsMemoryAccess a)
  | .invalidRegisterIndex => .fault .invalidRegisterIndex
  | .programTooLarge n => .fault (.programTooLarge n)
  | .stackOverflow => .fault .stackOverflow
  | .stackUnderflow => .fault .stackUnderflow
  | .illegalInstruction op => .refused (.illegalInstruction op)

/-- The fault kind a transaction that ended so has raised, if it raised one. -/
def raised {α : Type} (x : Result α) : Option Fault :=
  match x with
  | .next _ => none
  | .fault f => some f
  | .refused (.illegalInstruction op) => some (.illegalInstruction op)
  | .refused _ => none

/-- What the block holds after raising `f`: `FAULT <- F` and every other piece of the spec's state unspecified (R211,
R216; log 6). The model's own draw counter goes on. There is no return from a fault: only Reset clears the latch (R221). -/
def latch (f : Fault) (s : State) : State :=
  { Config.afterFault f s with fault := some f, draws := s.draws }

/-- `require FAULT = none` (R107, R111, R222): from a faulted state no transaction but Reset is defined. -/
def requireRunning {α : Type} (s : State) (x : Result α) : Result α :=
  match s.fault with
  | none => x
  | some f => .refused (.runIsOver f)

/-! One setter per register. -/

def State.setV (s : State) (r : Reg) (b : Byte) : State := { s with v := s.v.set r.val b r.isLt }
def State.setI (s : State) (w : Word) : State := { s with i := w }
def State.setPc (s : State) (w : Word) : State := { s with pc := w }
def State.setSp (s : State) (b : Byte) : State := { s with sp := b }
def State.setDt (s : State) (b : Byte) : State := { s with dt := b }
def State.setSt (s : State) (b : Byte) : State := { s with st := b }
def State.setStack (s : State) (j : Fin 16) (w : Word) : State := { s with stack := s.stack.set j.val w j.isLt }
def State.setMem (s : State) (m : Memory) : State := { s with mem := m }
def State.setPix (s : State) (p : Screen) : State := { s with pix := p }
def State.setKey (s : State) (k : Key) (down : Bool) : State := { s with key := s.key.set k.val down k.isLt }
def State.setFault (s : State) (f : Option Fault) : State := { s with fault := f }
def State.setDraws (s : State) (n : Nat) : State := { s with draws := n }

/-! Registers (spec/10_state.md R21). -/

/-- `V[r]` (R7, R21). -/
def State.getV (s : State) (r : Reg) : Byte := s.v[r.val]

/-- The Register File's bounds-checked read by number (R21): an index above 15 fails InvalidRegisterIndex. -/
def readReg (s : State) (k : Nat) : Result Byte :=
  if h : k < 16 then .next (s.getV ⟨k, h⟩) else raise .invalidRegisterIndex

/-- The Register File's bounds-checked write by number (R21). -/
def writeReg (k : Nat) (b : Byte) (s : State) : Result State :=
  if h : k < 16 then .next (s.setV ⟨k, h⟩ b) else raise .invalidRegisterIndex

/-- R136: an instruction that writes both VF and Vx writes VF first and Vx second (D3, log 8). -/
def setFlagThen (s : State) (f : Bool) (x : Reg) (result : Byte) : State :=
  (s.setV vF (flagByte f)).setV x result

/-- `Skip()`: `PC <- trunc_16(PC + 2)` (spec/41_flow_and_skip.md R117), also the fetch's increment (R104). -/
def State.pcPlus2 (s : State) : State := s.setPc (s.pc + 2)

/-- The Register File's decrement-by-2, used by Fx0A only (R24, R195). -/
def State.pcMinus2 (s : State) : State := s.setPc (s.pc - 2)

/-- Skip when the condition holds; otherwise only the fetch's advance remains (R121). -/
def skipIf (c : Bool) (s : State) : State := if c then s.pcPlus2 else s

/-- The free value of `random8()` for this draw (R149, D13; log 3). -/
def State.randomByte (s : State) : Byte := Config.random8 s.draws

/-- The next Cxkk draws another byte. -/
def State.drawn (s : State) : State := s.setDraws (s.draws + 1)

/-! Memory (spec/20_memory.md). -/

/-- The byte of a cell; an unlisted address reads as the reset contents (R51; log 26). -/
def Memory.peek : Memory → Nat → Byte
  | [], a => Config.resetByte a
  | (b, w) :: m, a => if a = b then w else Memory.peek m a

/-- The memory without an entry for `a`. -/
def Memory.erase (m : Memory) (a : Nat) : Memory := m.filter (fun c => c.1 != a)

/-- Put an entry before the first of a higher address. -/
def Memory.insert : Memory → Nat → Byte → Memory
  | [], a, v => [(a, v)]
  | (b, w) :: m, a, v => if a < b then (a, v) :: (b, w) :: m else (b, w) :: Memory.insert m a v

/-- `MEM[a] <- v` in canonical form: an entry only where it differs from what an unlisted address reads as. -/
def Memory.poke (m : Memory) (a : Nat) (v : Byte) : Memory :=
  if v = Config.resetByte a then Memory.erase m a else Memory.insert (Memory.erase m a) a v

/-- The canonical form from address `lo` up: rising addresses below 4096, no entry that an unlisted address reads as. -/
def Memory.wfFrom : Nat → Memory → Bool
  | _, [] => true
  | lo, (a, v) :: m => decide (lo ≤ a) && decide (a < Config.memSize) && decide (v ≠ Config.resetByte a) && Memory.wfFrom (a + 1) m

/-- The canonical form of memory. -/
def Memory.wf (m : Memory) : Bool := Memory.wfFrom 0 m

/-- The memory whose cell at every address `a` below 4096 is `f a`, in canonical form. -/
def Memory.ofContents (f : Nat → Byte) : Memory :=
  (List.range Config.memSize).filterMap fun a => if f a = Config.resetByte a then none else some (a, f a)

/-- MEM after Reset(program) (spec/70_reset_and_hazards.md R240, R242, R243): the font from 0x000, the program from
0x200, `RESET0` elsewhere. -/
def resetContents (par : Config.Params) (program : List Byte) (a : Nat) : Byte :=
  if h : a < Config.fontSize then par.font[a]
  else if Config.progBase ≤ a ∧ a < Config.progBase + program.length then
    program.getD (a - Config.progBase) (par.reset0.mem a)
  else par.reset0.mem a

/-- `MemRead(addr, 1)` (R52). -/
def memRead (addr : Nat) (s : State) : Result Byte :=
  if Config.memSize ≤ addr then raise (.outOfBoundsMemoryAccess addr) else .next (Memory.peek s.mem addr)

/-- `MemWrite(addr, 1, v)` (R53). -/
def memWrite (addr : Nat) (v : Byte) (s : State) : Result State :=
  if Config.memSize ≤ addr then raise (.outOfBoundsMemoryAccess addr) else .next (s.setMem (Memory.poke s.mem addr v))

/-- `MemReadRange(start, len)` (R54): checked as a whole, on the exact sum, before any byte is read (D7, log 11). -/
def memReadRange (start len : Nat) (s : State) : Result (List Byte) :=
  if Config.memSize < start + len then raise (.outOfBoundsMemoryAccess (start + len - 1))
  else .next ((List.range' start len).map (Memory.peek s.mem))

/-- Store bytes one at a time in ascending order (R160). -/
def storeBytes : Nat → List Byte → State → Result State
  | _, [], s => .next s
  | a, b :: bs, s => andThen (memWrite a b s) fun s' => storeBytes (a + 1) bs s'

/-- Fx55's loop over registers `k` to `k + count - 1`, each byte stored at I plus its number (R165). -/
def storeRegs : Nat → Nat → State → Result State
  | _, 0, s => .next s
  | k, count + 1, s =>
    andThen (readReg s k) fun b => andThen (memWrite (blockAddress s k) b s) fun s' => storeRegs (k + 1) count s'

/-- Fx65's loop over registers `k` to `k + count - 1`, each loaded from I plus its number (R166). -/
def loadRegs : Nat → Nat → State → Result State
  | _, 0, s => .next s
  | k, count + 1, s =>
    andThen (memRead (blockAddress s k) s) fun b => andThen (writeReg k b s) fun s' => loadRegs (k + 1) count s'

/-! Call stack (spec/41_flow_and_skip.md). -/

/-- `Push(a)` (R115): the check comes first and a failing Push writes nothing (C1, D2, log 12). A depth above 16,
which no run reaches, has no slot and is refused (log 7). -/
def push (a : Word) (s : State) : Result State :=
  if s.sp = 16 then raise .stackOverflow
  else if h : s.sp.toNat < Config.stackSlots then .next ((s.setStack ⟨s.sp.toNat, h⟩ a).setSp (s.sp + 1))
  else .refused (.depthOutOfRange s.sp)

/-- `Pop()` (R116): the depth goes down by one and the slot at the new depth is the result; it keeps its content. -/
def pop (s : State) : Result (Word × State) :=
  if s.sp = 0 then raise .stackUnderflow
  else if h : s.sp.toNat - 1 < Config.stackSlots then .next (s.stack[s.sp.toNat - 1], s.setSp (s.sp - 1))
  else .refused (.depthOutOfRange s.sp)

/-! Screen (spec/44_screen.md). -/

/-- `PIX[r][c]` (R175). -/
def Screen.get (p : Screen) (r : Fin 32) (c : Fin 64) : Bool := p[r.val][c.val]

/-- `PIX[r][c] <- PIX[r][c] ^ 1` (R177). -/
def Screen.toggle (p : Screen) (r : Fin 32) (c : Fin 64) : Screen :=
  p.set r.val (p[r.val].set c.val (!Screen.get p r c))

/-- A row number reduced modulo 32 (R175). -/
def wrapRow (n : Nat) : Fin 32 := ⟨n % 32, Nat.mod_lt _ (by decide)⟩

/-- A column number reduced modulo 64 (R175). -/
def wrapCol (n : Nat) : Fin 64 := ⟨n % 64, Nat.mod_lt _ (by decide)⟩

/-- The body of R177's loop for a 1 bit: note a collision, then toggle. -/
def drawPixel (x y : Byte) (row col : Nat) (d : Screen × Bool) : Screen × Bool :=
  (Screen.toggle d.1 (wrapRow (y.toNat + row)) (wrapCol (x.toNat + col)),
    d.2 || Screen.get d.1 (wrapRow (y.toNat + row)) (wrapCol (x.toNat + col)))

/-- R177's loop over the columns of one row; column 0 is bit 7, a 0 bit is skipped. -/
def drawBits (x y : Byte) (row : Nat) (b : Byte) : List Nat → Screen × Bool → Screen × Bool
  | [], d => d
  | col :: cols, d => drawBits x y row b cols (if b.getLsbD (7 - col) then drawPixel x y row col d else d)

/-- The columns of a sprite row, from the most significant bit on (R177). -/
def spriteCols : List Nat := [0, 1, 2, 3, 4, 5, 6, 7]

/-- R177's loop over the rows of a sprite. -/
def drawRows (x y : Byte) : Nat → List Byte → Screen × Bool → Screen × Bool
  | _, [], d => d
  | row, b :: bs, d => drawRows x y (row + 1) bs (drawBits x y row b spriteCols d)

/-- `DrawSprite(x, y, bytes)` (R177): the grid after it and the collision flag. -/
def drawSprite (x y : Byte) (bytes : List Byte) (p : Screen) : Screen × Bool := drawRows x y 0 bytes (p, false)

/-! Keyboard (spec/45_keys_and_timers.md). -/

/-- `KEY[k]`. -/
def State.keyDown (s : State) (k : Key) : Bool := s.key[k.val]

/-- `IsKeyDown(k)` for a register value (R191): an index of 16 or more is never down (D4, log 9). -/
def isKeyDown (s : State) (b : Byte) : Bool := if h : b.toNat < 16 then s.keyDown ⟨b.toNat, h⟩ else false

/-- The 16 keys in index order (R195). -/
def allKeys : List Key := [0, 1, 2, 3, 4, 5, 6, 7, 8, 9, 10, 11, 12, 13, 14, 15]

/-- R195's scan: a later match replaces an earlier one (C4, D23, log 24). -/
def scanFrom (s : State) : List Key → Option Key → Option Key
  | [], found => found
  | k :: ks, found => scanFrom s ks (if s.keyDown k then some k else found)

/-- The key Fx0A finds, if any is down. -/
def scanKeys (s : State) : Option Key := scanFrom s allKeys none

/-! Timers (spec/60_exceptions.md R222). -/

/-- One count down, stopping at 0 (R222). -/
def countDown (b : Byte) : Byte := if b = 0 then 0 else b - 1

end Sys2Proof.Machine
end

