-- ==== Sys2Proof/Machine/Alu.lean ====
section
/-! DEFINITION. Register loads, arithmetic, logic, shifts and the random byte (spec/42_register_alu.md). Operands are
sampled once before any write (R135); VF is written before Vx (R136). -/

namespace Sys2Proof.Machine

/-- 6xkk, `Vx <- kk` (R137). -/
def execLdByte (x : Reg) (kk : Byte) (s : State) : Result State := .next (s.setV x kk)

/-- 7xkk, `Vx <- trunc_8(Vx + kk)`, no flag (R138). -/
def execAddByte (x : Reg) (kk : Byte) (s : State) : Result State := .next (s.setV x (s.getV x + kk))

/-- 8xy0, `Vx <- Vy` (R139). -/
def execLdReg (x y : Reg) (s : State) : Result State := .next (s.setV x (s.getV y))

/-- 8xy1, `Vx <- Vx | Vy`, VF not written (R140). -/
def execOrReg (x y : Reg) (s : State) : Result State := .next (s.setV x (s.getV x ||| s.getV y))

/-- 8xy2, `Vx <- Vx & Vy`, VF not written (R141). -/
def execAndReg (x y : Reg) (s : State) : Result State := .next (s.setV x (s.getV x &&& s.getV y))

/-- 8xy3, `Vx <- Vx ^ Vy`, VF not written (R142). -/
def execXorReg (x y : Reg) (s : State) : Result State := .next (s.setV x (s.getV x ^^^ s.getV y))

/-- 8xy4, VF the carry, Vx the low 8 bits of the sum (R143). -/
def execAddReg (x y : Reg) (s : State) : Result State :=
  .next (setFlagThen s (carry (s.getV x) (s.getV y)) x (s.getV x + s.getV y))

/-- 8xy5, VF is `Vx > Vy`, Vx is `trunc_8(Vx - Vy)` (R144). -/
def execSub (x y : Reg) (s : State) : Result State :=
  .next (setFlagThen s (isAbove (s.getV x) (s.getV y)) x (s.getV x - s.getV y))

/-- 8xy6, VF is bit 0 of Vx, Vx is `Vx >> 1`; `y` is ignored (R145, R81). -/
def execShr (x _y : Reg) (s : State) : Result State :=
  .next (setFlagThen s (lowBit (s.getV x)) x (s.getV x >>> 1))

/-- 8xy7, VF is `Vy > Vx`, Vx is `trunc_8(Vy - Vx)` (R146). -/
def execSubn (x y : Reg) (s : State) : Result State :=
  .next (setFlagThen s (isAbove (s.getV y) (s.getV x)) x (s.getV y - s.getV x))

/-- 8xyE, VF is bit 7 of Vx, Vx is `trunc_8(Vx << 1)`; `y` is ignored (R147, R81). -/
def execShl (x _y : Reg) (s : State) : Result State :=
  .next (setFlagThen s (highBit (s.getV x)) x (s.getV x <<< 1))

/-- Cxkk, `Vx <- random8() & kk` (R148, R149). -/
def execRnd (x : Reg) (kk : Byte) (s : State) : Result State := .next (s.drawn.setV x (s.randomByte &&& kk))

end Sys2Proof.Machine
end

