-- ==== Sys2Proof/Machine/Display.lean ====
section
/-! DEFINITION. The display instructions (spec/44_screen.md R179, R180). -/

namespace Sys2Proof.Machine

/-- 00E0, every pixel 0; VF is not written (R179, R176). -/
def execCls (s : State) : Result State := .next (s.setPix Screen.blank)

/-- Dxyn, draw `n` bytes from I at (Vx, Vy) and set VF to the collision flag (R180). The coordinates are sampled and
the range checked before any pixel or VF changes. -/
def execDrw (x y : Reg) (n : Nat) (s : State) : Result State :=
  andThen (memReadRange (blockAddress s 0) n s) fun bytes =>
    .next ((s.setPix (drawSprite (s.getV x) (s.getV y) bytes s.pix).1).setV vF
      (flagByte (drawSprite (s.getV x) (s.getV y) bytes s.pix).2))

end Sys2Proof.Machine
end

