-- ==== Sys2Proof/Machine/Flow.lean ====
section
/-! DEFINITION. Control transfer and skips on registers (spec/41_flow_and_skip.md). In every meaning PC is already
the instruction's address plus 2 (spec/40_step_cycle.md R104, R106). -/

namespace Sys2Proof.Machine

/-- 00EE, `PC <- pop()` (R118). -/
def execRet (s : State) : Result State := andThen (pop s) fun r => .next (r.2.setPc r.1)

/-- 1nnn, `PC <- nnn` (R119). -/
def execJp (nnn : BitVec 12) (s : State) : Result State := .next (s.setPc (address nnn))

/-- 2nnn, `push(PC); PC <- nnn` (R120). -/
def execCall (nnn : BitVec 12) (s : State) : Result State :=
  andThen (push s.pc s) fun s' => .next (s'.setPc (address nnn))

/-- 3xkk, skip if `Vx == kk` (R121). -/
def execSeByte (x : Reg) (kk : Byte) (s : State) : Result State := .next (skipIf (s.getV x == kk) s)

/-- 4xkk, skip if `Vx != kk` (R122). -/
def execSneByte (x : Reg) (kk : Byte) (s : State) : Result State := .next (skipIf (s.getV x != kk) s)

/-- 5xy0, skip if `Vx == Vy` (R123). -/
def execSeReg (x y : Reg) (s : State) : Result State := .next (skipIf (s.getV x == s.getV y) s)

/-- 9xy0, skip if `Vx != Vy` (R124). -/
def execSneReg (x y : Reg) (s : State) : Result State := .next (skipIf (s.getV x != s.getV y) s)

/-- Bnnn, `PC <- nnn + V0` (R125). -/
def execJpV0 (nnn : BitVec 12) (s : State) : Result State := .next (s.setPc (offsetTarget nnn (s.getV v0)))

end Sys2Proof.Machine
end

