-- ==== Sys2Proof/Machine/Index.lean ====
section
/-! DEFINITION. The index register and the memory blocks (spec/43_index_and_memory.md). None of the block
instructions changes I (R160). -/

namespace Sys2Proof.Machine

/-- Annn, `I <- nnn` (R161). -/
def execLdI (nnn : BitVec 12) (s : State) : Result State := .next (s.setI (address nnn))

/-- Fx1E, `I <- trunc_16(I + Vx)`, no flag (R162). -/
def execAddI (x : Reg) (s : State) : Result State := .next (s.setI (indexPlus s.i (s.getV x)))

/-- Fx29, `I <- Vx * 5` (R163). -/
def execLdF (x : Reg) (s : State) : Result State := .next (s.setI (glyphAddress (s.getV x)))

/-- Fx33, the decimal digits of Vx to I, I+1, I+2 (R164). -/
def execLdB (x : Reg) (s : State) : Result State := storeBytes (blockAddress s 0) (decimalDigits (s.getV x)) s

/-- Fx55, V0 to Vx to memory at I, both ends included (R165). -/
def execLdMemVx (x : Reg) (s : State) : Result State := storeRegs 0 (x.val + 1) s

/-- Fx65, V0 to Vx from memory at I, both ends included (R166). -/
def execLdVxMem (x : Reg) (s : State) : Result State := loadRegs 0 (x.val + 1) s

end Sys2Proof.Machine
end

