-- ==== Sys2Proof/Machine/KeysTimers.lean ====
section
/-! DEFINITION. The key and timer instructions (spec/45_keys_and_timers.md). -/

namespace Sys2Proof.Machine

/-- Ex9E, skip if key Vx is down (R193). -/
def execSkp (x : Reg) (s : State) : Result State := .next (skipIf (isKeyDown s (s.getV x)) s)

/-- ExA1, skip if key Vx is not down (R194). -/
def execSknp (x : Reg) (s : State) : Result State := .next (skipIf (!isKeyDown s (s.getV x)) s)

/-- Fx07, `Vx <- DT` (R197). -/
def execLdVxDt (x : Reg) (s : State) : Result State := .next (s.setV x s.dt)

/-- Fx0A (R195): with a key down Vx is its number, the highest if several; with none PC goes back to this
instruction. The wait has no state of its own (R35). -/
def execLdVxK (x : Reg) (s : State) : Result State :=
  match scanKeys s with
  | none => .next s.pcMinus2
  | some k => .next (s.setV x (keyNumber k))

/-- Fx15, `DT <- Vx` (R198). -/
def execLdDtVx (x : Reg) (s : State) : Result State := .next (s.setDt (s.getV x))

/-- Fx18, `ST <- Vx` (R199). -/
def execLdStVx (x : Reg) (s : State) : Result State := .next (s.setSt (s.getV x))

end Sys2Proof.Machine
end

