-- ==== Sys2Proof/Machine/Cycle.lean ====
section
/-! DEFINITION. One Step (spec/40_step_cycle.md R104 to R107): fetch, decode, dispatch; and where the fetch finds its
next word. -/

namespace Sys2Proof.Machine

/-- Fetch (R104): the byte at PC, the byte at PC + 1, then PC <- PC + 2; high byte first (R56). -/
def fetch (s : State) : Result (Word × State) :=
  andThen (memRead s.pc.toNat s) fun hi =>
    andThen (memRead (s.pc.toNat + 1) s) fun lo =>
      .next (wordOf hi lo, s.pcPlus2)

/-- Decode and dispatch (R105, R106). A reserved encoding raises IllegalInstruction (R82, R214). -/
def runWord (op : Word) (s : State) : Result State :=
  match decodeWord op with
  | .ok i => exec i s
  | .error _ => raise (.illegalInstruction op)

/-- The whole Step (R107). -/
def cycle (s : State) : Result State :=
  requireRunning s (andThen (fetch s) fun r => runWord r.1 r.2)

/-- The last address a fetch can succeed at (R104). -/
def lastFetch : Nat := Config.memSize - 2

/-- `s` with the word `op` where its next fetch reads, and a fetch that succeeds: the latch clear and, if PC allows no
fetch, PC at 0x200. DESIGN CHOICE: log 17. -/
def placeWord (s : State) (op : Word) : State :=
  let pc := if s.pc.toNat ≤ lastFetch then s.pc else BitVec.ofNat 16 Config.progBase
  { s with
    pc := pc
    fault := none
    mem := Memory.poke (Memory.poke s.mem pc.toNat (highByte op)) (pc.toNat + 1) (lowByte op) }

end Sys2Proof.Machine
end

