-- ==== Sys2Proof/Machine/Step.lean ====
section
/-! DEFINITION. The step function (spec/40_step_cycle.md R107) and the placing of one word for it to fetch. -/

namespace Sys2Proof.Machine

/-- The transaction Step (R101, R107). Its random byte is the free value of log 3. -/
def step (s : State) : Host.Outcome State Fault Refusal := cycle s

/-- `s` with the instruction of the low `nbits` bits of `w` where step fetches next. An instruction is one 16-bit word
(R75), so this stores two bytes, high byte first (R56). It stands for the loading of a program (log 16, log 17). -/
def State.withFetchWord (s : State) (nbits w : Nat) : State := placeWord s (tableWord nbits w)

end Sys2Proof.Machine
end

