-- ==== Sys2Proof/Machine/Transact.lean ====
section
/-! DEFINITION. The interface of the block as the host uses it: Reset, Step, Tick, KeyEvent and the three reads
(spec/40_step_cycle.md R101), each atomic (R102), in any order the host chooses (R103: the parameter SCHEDULE). -/

namespace Sys2Proof.Machine

/-- `Reset(program)` with the parameters `FONT` and `RESET0` as an argument (spec/70_reset_and_hazards.md R240, R242,
R243; R5). The whole state is built afresh (R241); only the model's draw counter goes on, so that a later run draws
other bytes (log 4). -/
def resetMachine (par : Config.Params) (program : List Byte) (draws : Nat) : Result State :=
  if Config.progMax < program.length then raise (.programTooLarge program.length)
  else .next ((State.fresh par.reset0 (Memory.ofContents (resetContents par program))).setDraws draws)

/-- Tick (spec/60_exceptions.md R222): both timers down by one, floor 0, nothing else. -/
def tick (s : State) : Result State := requireRunning s (.next ((s.setDt (countDown s.dt)).setSt (countDown s.st)))

/-- KeyEvent (spec/45_keys_and_timers.md R190): `none` is "no key" and changes nothing (D19, log 24). -/
def keyEvent (k : Option Key) (down : Bool) (s : State) : Result State :=
  requireRunning s (match k with
    | none => .next s
    | some k => .next (s.setKey k down))

/-- ReadScreen (R108, R181). -/
def readScreen (s : State) : Result Screen := requireRunning s (.next s.pix)

/-- ReadDT (R108). -/
def readDt (s : State) : Result Byte := requireRunning s (.next s.dt)

/-- ReadST (R108). -/
def readSt (s : State) : Result Byte := requireRunning s (.next s.st)

/-- The sound signal a host derives from ReadST: `ST != 0` (R224). -/
def soundOn (st : Byte) : Bool := st != 0

/-- The transactions of R101. A key index is 0 to 15 or "no key" by its type (U18). -/
inductive Transaction where
  | reset (program : List Byte)
  | step
  | tick
  | keyEvent (k : Option Key) (down : Bool)
  | readScreen
  | readDt
  | readSt
  deriving DecidableEq, Repr

/-- One transaction on the state of the block with parameters `par` (R101). Every Reset of one block loads the same
`FONT` and `RESET0` (R5); a read changes nothing. -/
def transact (par : Config.Params) (t : Transaction) (s : State) : Result State :=
  match t with
  | .reset program => resetMachine par program s.draws
  | .step => step s
  | .tick => tick s
  | .keyEvent k down => keyEvent k down s
  | .readScreen => andThen (readScreen s) fun _ => .next s
  | .readDt => andThen (readDt s) fun _ => .next s
  | .readSt => andThen (readSt s) fun _ => .next s

/-- A run under the `SCHEDULE` the host chose (R5, R103): the transactions in order, ended by the first that does not
complete. -/
def runSchedule (par : Config.Params) : List Transaction → State → Result State
  | [], s => .next s
  | t :: ts, s => andThen (transact par t s) (runSchedule par ts)

/-- What the block holds after a transaction: the next state if it completes, the latched fault with everything else
unspecified if it raises one (R211, R216; log 6; for a failed Reset DESIGN CHOICE: log 27), nothing defined otherwise
(R111). -/
def heldAfter (par : Config.Params) (t : Transaction) (s : State) : Option State :=
  match transact par t s with
  | .next s' => some s'
  | r => (raised r).map fun f => latch f s

end Sys2Proof.Machine
end

