-- ==== Sys2Proof/Safety.lean ====
section
/-! DEFINITION. The terms claims are stated in: what a state's pieces are and when two states agree on one, what an
instruction leaves unchanged, the invariant of the machine, reachable states, and when a run is safe or over. -/

namespace Sys2Proof.Machine

/-! Frames (spec/00_scope.md R9). -/

/-- The pieces of the state, down to one register, slot, byte, pixel or key (R20). -/
inductive Piece where
  | v (r : Reg)
  | i
  | pc
  | sp
  | dt
  | st
  | stack (j : Fin 16)
  | mem (a : Nat)
  | pix (r : Fin 32) (c : Fin 64)
  | key (k : Key)
  | fault
  | draws
  deriving DecidableEq, Repr

/-- Two states hold the same in one piece. -/
def Agree (s t : State) : Piece → Prop
  | .v r => t.getV r = s.getV r
  | .i => t.i = s.i
  | .pc => t.pc = s.pc
  | .sp => t.sp = s.sp
  | .dt => t.dt = s.dt
  | .st => t.st = s.st
  | .stack j => t.stack[j.val] = s.stack[j.val]
  | .mem a => Memory.peek t.mem a = Memory.peek s.mem a
  | .pix r c => Screen.get t.pix r c = Screen.get s.pix r c
  | .key k => t.keyDown k = s.keyDown k
  | .fault => t.fault = s.fault
  | .draws => t.draws = s.draws

/-- From `s` to `t` nothing changes outside the pieces `W` names. -/
def ChangesOnly (W : Piece → Prop) (s t : State) : Prop := ∀ p, ¬ W p → Agree s t p

/-! Encodings and stops. -/

/-- The word numbered `w` decodes to `i`. -/
def Encodes (w : Nat) (i : Instr) : Prop := decodeWord (BitVec.ofNat 16 w) = .ok i

/-- The reserved encodings as R82's table lists them, on the digits of the word. -/
def ReservedWord (w : Nat) : Prop :=
  (w / 4096 = 0 ∧ w ≠ 0x00E0 ∧ w ≠ 0x00EE)
  ∨ (w / 4096 = 5 ∧ w % 16 ≠ 0)
  ∨ (w / 4096 = 8 ∧ w % 16 ∈ [0x8, 0x9, 0xA, 0xB, 0xC, 0xD, 0xF])
  ∨ (w / 4096 = 9 ∧ w % 16 ≠ 0)
  ∨ (w / 4096 = 0xE ∧ w % 256 ≠ 0x9E ∧ w % 256 ≠ 0xA1)
  ∨ (w / 4096 = 0xF ∧ w % 256 ∉ [0x07, 0x0A, 0x15, 0x18, 0x1E, 0x29, 0x33, 0x55, 0x65])

/-- The two bytes at PC, high byte first, as a number (R56). -/
def wordAtPc (s : State) : Nat :=
  (Memory.peek s.mem s.pc.toNat).toNat * 256 + (Memory.peek s.mem (s.pc.toNat + 1)).toNat

/-- The next Step fetches the instruction `i`: no fault is latched, both bytes are inside memory, and their word
decodes to `i` (R104, R105). -/
def Fetches (s : State) (i : Instr) : Prop :=
  s.fault = none ∧ s.pc.toNat + 1 < 4096 ∧ Encodes (wordAtPc s) i

/-- The complete causes of a fault in the execute phase (spec/60_exceptions.md R212 b to d, R213). -/
def FaultCause (i : Instr) (s : State) (f : Fault) : Prop :=
  match i with
  | .ret => s.sp = 0 ∧ f = .stackUnderflow
  | .call _ => s.sp = 16 ∧ f = .stackOverflow
  | .drw _ _ n => 4096 < s.i.toNat + n ∧ f = .outOfBoundsMemoryAccess (s.i.toNat + n - 1)
  | .ldB _ => 4093 < s.i.toNat ∧ f = .outOfBoundsMemoryAccess (max s.i.toNat 4096)
  | .ldMemVx x => 4095 < s.i.toNat + x.val ∧ f = .outOfBoundsMemoryAccess (max s.i.toNat 4096)
  | .ldVxMem x => 4095 < s.i.toNat + x.val ∧ f = .outOfBoundsMemoryAccess (max s.i.toNat 4096)
  | .cls | .jp _ | .seByte _ _ | .sneByte _ _ | .seReg _ _ | .ldByte _ _ | .addByte _ _ | .ldReg _ _
  | .orReg _ _ | .andReg _ _ | .xorReg _ _ | .addReg _ _ | .sub _ _ | .shr _ _ | .subn _ _ | .shl _ _
  | .sneReg _ _ | .ldI _ | .jpV0 _ | .rnd _ _ | .skp _ | .sknp _ | .ldVxDt _ | .ldVxK _ | .ldDtVx _
  | .ldStVx _ | .addI _ | .ldF _ => False

/-! The screen as R178 describes a draw. -/

/-- Position (r, c) lies under a 1 bit of the sprite `bytes` drawn at (x, y) (R177, R178). -/
def Covered (x y : Byte) (bytes : List Byte) (r : Fin 32) (c : Fin 64) : Prop :=
  ∃ row col : Nat, ∃ b : Byte, bytes[row]? = some b ∧ col < 8 ∧ b.toNat / 2 ^ (7 - col) % 2 = 1
    ∧ (y.toNat + row) % 32 = r.val ∧ (x.toNat + col) % 64 = c.val

/-- The `n` bytes a sprite is read from (R54). -/
def spriteBytes (s : State) (n : Nat) : List Byte := (List.range n).map fun k => Memory.peek s.mem (s.i.toNat + k)

/-! The machine's invariant, reachable states, runs. -/

/-- What holds in every state reached from Reset without a fault: memory in canonical form, 0 <= SP <= 16 (R25, R38),
PC at most 0x10FE (R24), every live slot a return address from 2 to 4096 (R38, R118), no fault latched (R32). -/
structure Inv (s : State) : Prop where
  mem : Memory.wf s.mem = true
  sp : s.sp.toNat ≤ 16
  pc : s.pc.toNat ≤ 0x10FE
  live : ∀ j : Fin 16, j.val < s.sp.toNat → 2 ≤ s.stack[j.val].toNat ∧ s.stack[j.val].toNat ≤ 4096
  running : s.fault = none

/-- A state some host reaches in the block with parameters `par`: a successful Reset with any program, then completed
transactions (R103). -/
inductive Reachable (par : Config.Params) : State → Prop where
  | reset {program draws s} (h : resetMachine par program draws = .next s) : Reachable par s
  | move {t s s'} (hs : Reachable par s) (h : transact par t s = .next s') : Reachable par s'

/-- The run under a schedule completes without a fault and ends in a state with no fault latched: the premise every
claim about a program takes or proves (R111, R216). -/
def SafeRun (par : Config.Params) (schedule : List Transaction) (s : State) : Prop :=
  ∃ t, runSchedule par schedule s = .next t ∧ t.fault = none

/-- The parameter `END_OF_RUN` (R5, R110, D16; log 25): which schedules and states count as the end of a run. The
hardware defines none and stops at none. -/
abbrev EndOfRun := List Transaction → State → Prop

/-- `END_OF_RUN` as "PC addresses a jump to itself" (R110), in a state that is not faulted (R111). -/
def AtSelfJump (s : State) : Prop := s.fault = none ∧ s.pc.toNat + 1 < 4096 ∧ wordAtPc s = 0x1000 + s.pc.toNat

/-- `END_OF_RUN` as "after the host's k-th Step" (R110): `k` Steps have been issued. -/
def AfterSteps (k : Nat) (schedule : List Transaction) : Prop := schedule.count .step = k

/-- The first definition R110 offers, as a value of the parameter. -/
def EndOfRun.atSelfJump : EndOfRun := fun _ s => AtSelfJump s

/-- The second definition R110 offers, as a value of the parameter. -/
def EndOfRun.afterSteps (k : Nat) : EndOfRun := fun schedule _ => AfterSteps k schedule

/-- A good run of the block with parameters `par` ends in `t` (R110): it completes under the host's schedule, it is over
by the definition `endOfRun` that the claim chose, and `t` is not faulted, whatever that definition (R111, R216). -/
def GoodRun (par : Config.Params) (endOfRun : EndOfRun) (schedule : List Transaction) (s t : State) : Prop :=
  runSchedule par schedule s = .next t ∧ t.fault = none ∧ endOfRun schedule t

end Sys2Proof.Machine
end

