-- ==== Sys2Proof/Certificates/Slice0/Obligations.lean ====
section
/-! DEFINITION. The statements for the provers, from the numbered rules of spec/. In a statement about `exec` the
state is the one the fetch left: PC is already the instruction's address plus 2 (spec/40_step_cycle.md R106). Frames
are said by `ChangesOnly`, piece by piece, memory byte by byte (Safety.lean). -/

open Sys2Proof Sys2Proof.Machine

/-! Encoding (spec/30_encoding.md). -/

/-- Sample words of every family, written bit by bit from R80's patterns and 95_test_vectors.md T-ENC-3. -/
def Obligations.SampleWordsDecode : Prop :=
  decodeWord 0b0110_0001_0010_0011 = .ok (.ldByte 1 0x23)
  ∧ decodeWord 0b1000_0000_0001_0100 = .ok (.addReg 0 1)
  ∧ decodeWord 0b1101_0001_0010_0101 = .ok (.drw 1 2 5)
  ∧ decodeWord 0b1111_0001_0101_0101 = .ok (.ldMemVx 1)
  ∧ decodeWord 0b0011_1010_0111_1111 = .ok (.seByte 10 0x7F)
  ∧ decodeWord 0b0010_0010_1111_0000 = .ok (.call 0x2F0)
  ∧ decodeWord 0b1110_0000_1010_0001 = .ok (.sknp 0)
  ∧ decodeWord 0b1000_0010_0011_1000 = .error (.reserved 0x8238)

/-- R88 against R79: the bytes of every well-formed instruction, with anything after them, decode to it. -/
def Obligations.DecodeOfEncodeIsTheInstruction : Prop :=
  ∀ (i : Instr) (rest : List Byte), i.wf = true → decode (encode i ++ rest) = .ok (i, rest)

/-- The other direction: a word that decodes is the encoding of what it decodes to, ignored fields included (R81). -/
def Obligations.DecodedWordReencodes : Prop :=
  ∀ (op : Word) (i : Instr), decodeWord op = .ok i → encodeWord i = op ∧ i.wf = true

/-- The words that select no instruction are exactly those of R82's table. -/
def Obligations.ReservedWordsAreTheListedOnes : Prop :=
  ∀ op : Word, (ReservedWord op.toNat ↔ decodeWord op = .error (.reserved op))
    ∧ (¬ ReservedWord op.toNat → ∃ i, decodeWord op = .ok i)

/-! The Step (spec/40_step_cycle.md). -/

/-- R104, R56: the fetch reads the byte at PC, then the byte at PC + 1, high byte first, and advances PC by 2; it
faults at PC >= 4096 on the first byte and at PC = 4095 on the second. -/
def Obligations.FetchReadsTwoBytesAndAdvances : Prop :=
  ∀ s : State,
    (s.pc.toNat < 4095 → ∃ op t, fetch s = .next (op, t) ∧ op.toNat = wordAtPc s
      ∧ t.pc.toNat = s.pc.toNat + 2 ∧ ChangesOnly (· = .pc) s t)
    ∧ (s.pc.toNat = 4095 → fetch s = .fault (.outOfBoundsMemoryAccess 4096))
    ∧ (4096 ≤ s.pc.toNat → fetch s = .fault (.outOfBoundsMemoryAccess s.pc.toNat))

/-- R107: a Step whose bytes at PC decode to `i` is `exec i` on the state with PC advanced by 2. -/
def Obligations.StepRunsTheDecodedInstruction : Prop :=
  ∀ (s : State) (i : Instr) (rest : List Byte), s.fault = none → s.pc.toNat < 4095 →
    decode [Memory.peek s.mem s.pc.toNat, Memory.peek s.mem (s.pc.toNat + 1)] = .ok (i, rest) →
    step s = exec i { s with pc := s.pc + 2 }

/-- A Step that fetches a reserved encoding ends with IllegalInstruction of that word. That it stops is the spec's
own decision D1, and that the model files it as a refusal follows R214's last sentence (log 5). -/
def Obligations.ReservedWordIsIllegalInstruction : Prop :=
  ∀ (s : State) (op : Word), s.fault = none → s.pc.toNat < 4095 → op.toNat = wordAtPc s → ReservedWord op.toNat →
    step s = .refused (.illegalInstruction op) ∧ raised (step s) = some (.illegalInstruction op)

/-- The spec's own reading D26 of R215 and R21 (DEDUCED: log 18): no Step, and no other transaction, raises InvalidRegisterIndex, which guards
the Register File's accessors against an index outside 0 to 15; Reset and nothing else raises ProgramTooLarge, exactly
for a program of more than 3584 bytes. -/
def Obligations.RegisterAndProgramFaultsAreRaisedByNoStep : Prop :=
  (∀ (par : Config.Params) (t : Transaction) (s : State), transact par t s ≠ .fault .invalidRegisterIndex)
  ∧ (∀ (k : Nat) (b : Byte) (s : State), 16 ≤ k →
      readReg s k = .fault .invalidRegisterIndex ∧ writeReg k b s = .fault .invalidRegisterIndex)
  ∧ (∀ (par : Config.Params) (t : Transaction) (s : State) (n : Nat),
      transact par t s = .fault (.programTooLarge n) ↔ ∃ p, t = .reset p ∧ p.length = n ∧ 3584 < n)

/-- R212 (b) to (d) and R213: the complete causes of a fault in the execute phase, with the address R212 gives.
That Dxyn is checked as a whole, n = 0 included, is the spec's own decision D7 (log 11). -/
def Obligations.ExecuteFaultsHaveExactlyTheListedCauses : Prop :=
  ∀ (i : Instr) (s : State) (f : Fault), exec i s = .fault f ↔ FaultCause i s f

/-- From a faulted state no Step, Tick, KeyEvent or read is defined, and Reset builds a running machine again. The
latch is the spec's own decision D10 (R32, R111); log 6. -/
def Obligations.FaultedStateAllowsOnlyReset : Prop :=
  ∀ (par : Config.Params) (s : State) (f : Fault), s.fault = some f →
    (∀ t, (∀ p, t ≠ .reset p) → transact par t s = .refused (.runIsOver f))
    ∧ ∀ p : List Byte, p.length ≤ 3584 → ∃ t, transact par (.reset p) s = .next t ∧ t.fault = none

/-- R111: no schedule that completes from a state with no fault latched ends in a faulted state, and one that ends a good
run from a faulted state, by whatever definition of the end, begins with Reset. The latch is the spec's own decision
D10 (log 6), the definition of the end the parameter of D16 (log 25). -/
def Obligations.FaultedStateIsNeverTheEndOfAGoodRun : Prop :=
  (∀ (par : Config.Params) (schedule : List Transaction) (s t : State), s.fault = none →
    runSchedule par schedule s = .next t → t.fault = none)
  ∧ ∀ (par : Config.Params) (endOfRun : EndOfRun) (schedule : List Transaction) (s t : State) (f : Fault),
    s.fault = some f → GoodRun par endOfRun schedule s t → ∃ p rest, schedule = .reset p :: rest

/-- A transaction that raises a fault leaves the latch set to that fault's kind (R211, R32, the spec's decision D10;
log 6). Nothing else is said of the state it leaves. For a Reset that raises ProgramTooLarge, after which the spec says
no machine exists (R242, U19), that a state with the latch set is held is the model's own choice (log 27). -/
def Obligations.RaisedFaultIsLatched : Prop :=
  ∀ (par : Config.Params) (t : Transaction) (s : State) (f : Fault), raised (transact par t s) = some f →
    ∃ u, heldAfter par t s = some u ∧ u.fault = some f

/-! Invariants and whole-machine rules. -/

/-- Every Step keeps the machine's invariant: canonical memory, 0 <= SP <= 16, PC at most 0x10FE, live slots from 2
to 4096, no fault latched (R24, R25, R38, R118). -/
def Obligations.StepKeepsTheInvariant : Prop :=
  ∀ s t : State, Inv s → step s = .next t → Inv t

/-- Every transaction keeps the machine's invariant, for every FONT and RESET0; and a Reset that completes meets it
from any state, a faulted one included (R101, R240). -/
def Obligations.TransactionsKeepTheInvariant : Prop :=
  ∀ (par : Config.Params) (x : Transaction) (s t : State), transact par x s = .next t →
    Inv s ∨ (∃ p, x = .reset p) → Inv t

/-- The invariant holds after Reset with an empty program. -/
def Obligations.ResetMeetsTheInvariant : Prop := Inv State.reset

/-- Every run a host can drive, under any schedule and from any FONT, RESET0 and program, keeps the invariant (R103). -/
def Obligations.ReachableStatesMeetTheInvariant : Prop :=
  ∀ (par : Config.Params) (s : State), Reachable par s → Inv s

/-- What no instruction changes, and which instructions may change the rest (R33, R27, R28, R30, R31, R68): KEY and
FAULT never; memory only by Fx33 and Fx55; I only by Annn, Fx1E, Fx29; the slots only by 2nnn and SP only by 2nnn and
00EE; PIX only by 00E0 and Dxyn; DT only by Fx15 and ST only by Fx18. -/
def Obligations.OnlyTheListedInstructionsWriteEachPiece : Prop :=
  ∀ (i : Instr) (s t : State), exec i s = .next t →
    t.key = s.key ∧ t.fault = s.fault
    ∧ (t.mem ≠ s.mem → ∃ x, i = .ldB x ∨ i = .ldMemVx x)
    ∧ (t.i ≠ s.i → (∃ nnn, i = .ldI nnn) ∨ ∃ x, i = .addI x ∨ i = .ldF x)
    ∧ (t.stack ≠ s.stack → ∃ nnn, i = .call nnn)
    ∧ (t.sp ≠ s.sp → i = .ret ∨ ∃ nnn, i = .call nnn)
    ∧ (t.pix ≠ s.pix → i = .cls ∨ ∃ x y n, i = .drw x y n)
    ∧ (t.dt ≠ s.dt → ∃ x, i = .ldDtVx x)
    ∧ (t.st ≠ s.st → ∃ x, i = .ldStVx x)

/-- Only the six instructions of R22 write VF without naming it; every other change of VF is by an instruction whose
`x` is F. -/
def Obligations.FlagIsWrittenOnlyBySixInstructions : Prop :=
  ∀ (i : Instr) (s t : State), exec i s = .next t → t.getV 15 ≠ s.getV 15 →
    (∃ x y, i = .addReg x y ∨ i = .sub x y ∨ i = .shr x y ∨ i = .subn x y ∨ i = .shl x y ∨ ∃ n, i = .drw x y n)
    ∨ (∃ kk, i = .ldByte 15 kk ∨ i = .addByte 15 kk ∨ i = .rnd 15 kk)
    ∨ (∃ y, i = .ldReg 15 y ∨ i = .orReg 15 y ∨ i = .andReg 15 y ∨ i = .xorReg 15 y)
    ∨ i = .ldVxDt 15 ∨ i = .ldVxK 15 ∨ i = .ldVxMem 15

/-- R39: a timer moves up only by Fx15 or Fx18; every other completed Step leaves both alone, a Tick lowers a
non-zero timer by exactly 1 and leaves a zero timer at 0, and KeyEvent and the reads change neither. -/
def Obligations.TimersMoveOnlyByTickAndTheirSetters : Prop :=
  (∀ (s t : State) (i : Instr), Fetches s i → step s = .next t →
    ((∀ x, i ≠ .ldDtVx x) → t.dt = s.dt) ∧ ((∀ x, i ≠ .ldStVx x) → t.st = s.st))
  ∧ (∀ (par : Config.Params) (s t : State), transact par .tick s = .next t →
    (s.dt ≠ 0 → t.dt.toNat + 1 = s.dt.toNat) ∧ (s.dt = 0 → t.dt = 0)
    ∧ (s.st ≠ 0 → t.st.toNat + 1 = s.st.toNat) ∧ (s.st = 0 → t.st = 0))
  ∧ ∀ (par : Config.Params) (x : Transaction) (s t : State), x ≠ .step → x ≠ .tick → (∀ p, x ≠ .reset p) →
    transact par x s = .next t →
    t.dt = s.dt ∧ t.st = s.st

/-- "No instruction reads it": two states that differ only in ST go to states that differ only in ST, for every
instruction but Fx18 (R27, R199). -/
def Obligations.SoundTimerIsNeverRead : Prop :=
  ∀ (i : Instr) (s t : State) (b : Byte), (∀ x, i ≠ .ldStVx x) → exec i s = .next t →
    exec i (s.setSt b) = .next (t.setSt b)

/-! Reset and the host's transactions (spec/70_reset_and_hazards.md, spec/60_exceptions.md, spec/40_step_cycle.md). -/

/-- R36, for every FONT and RESET0: PC, the font bytes, the program bytes in order and a clear screen. -/
def Obligations.ResetLoadsFontAndProgram : Prop :=
  ∀ (par : Config.Params) (program : List Byte) (d : Nat), program.length ≤ 3584 →
    ∃ t, resetMachine par program d = .next t
      ∧ t.pc.toNat = 0x200
      ∧ (∀ j : Fin 80, Memory.peek t.mem j.val = par.font[j.val])
      ∧ (∀ j (h : j < program.length), Memory.peek t.mem (0x200 + j) = program[j])
      ∧ ∀ r c, Screen.get t.pix r c = false

/-- What the document gives no reset value for holds the parameter RESET0 after Reset, whatever it is: registers, I,
timers, slots, keys, memory outside font and program; SP is 0 and no fault is latched (R37, decision D8; log 2). -/
def Obligations.ResetPutsTheParameterInTheRest : Prop :=
  ∀ (par : Config.Params) (program : List Byte) (d : Nat) (t : State), resetMachine par program d = .next t →
    t.v = par.reset0.v ∧ t.i = par.reset0.i ∧ t.dt = par.reset0.dt ∧ t.st = par.reset0.st
    ∧ t.stack = par.reset0.stack ∧ t.key = par.reset0.key ∧ t.sp = 0 ∧ t.fault = none
    ∧ ∀ a, 80 ≤ a → a < 4096 → (a < 0x200 ∨ 0x200 + program.length ≤ a) → Memory.peek t.mem a = par.reset0.mem a

/-- The same at the spec's chosen RESET0 = 0 (R37, decision D8; log 2): registers, I, SP, timers, slots and keys 0,
memory outside font and program 0, no fault. -/
def Obligations.ResetZeroesTheRest : Prop :=
  ∀ (font : Config.Font) (program : List Byte) (d : Nat) (t : State),
    resetMachine ⟨font, Config.reset0⟩ program d = .next t →
    (∀ r, t.getV r = 0) ∧ t.i = 0 ∧ t.sp = 0 ∧ t.dt = 0 ∧ t.st = 0 ∧ (∀ j : Fin 16, t.stack[j.val] = 0)
    ∧ (∀ k, t.keyDown k = false) ∧ t.fault = none
    ∧ ∀ a, 80 ≤ a → a < 4096 → (a < 0x200 ∨ 0x200 + program.length ≤ a) → Memory.peek t.mem a = 0

/-- R222: a Tick lowers both timers by one, floor 0, changes nothing else and does not fault. -/
def Obligations.TickCountsBothTimersDown : Prop :=
  ∀ s : State, s.fault = none → ∃ t, tick s = .next t
    ∧ t.dt.toNat = s.dt.toNat - 1 ∧ t.st.toNat = s.st.toNat - 1
    ∧ ChangesOnly (fun p => p = .dt ∨ p = .st) s t

/-- R223's counter law: after `k` Ticks a timer reads its value less `k`, floor 0, and nothing else has moved. -/
def Obligations.TimersAfterTicks : Prop :=
  ∀ (par : Config.Params) (k : Nat) (s : State), s.fault = none → ∃ t, runSchedule par (List.replicate k .tick) s = .next t
    ∧ t.dt.toNat = s.dt.toNat - k ∧ t.st.toNat = s.st.toNat - k
    ∧ ChangesOnly (fun p => p = .dt ∨ p = .st) s t

/-- KeyEvent writes the level of the one key it names and nothing else; "no key" changes nothing. The form of the
event is the spec's own decision D19 (R190; log 24). -/
def Obligations.KeyEventSetsOneKey : Prop :=
  ∀ (s : State) (down : Bool), s.fault = none →
    (∀ k : Key, ∃ t, keyEvent (some k) down s = .next t ∧ t.keyDown k = down ∧ ChangesOnly (· = .key k) s t)
    ∧ keyEvent none down s = .next s

/-- The reads give PIX, DT and ST and, as transactions, change nothing. That they are transactions is the spec's own
decision D22 (R108). -/
def Obligations.ReadsReturnStateAndChangeNothing : Prop :=
  ∀ (par : Config.Params) (s : State), s.fault = none →
    readScreen s = .next s.pix ∧ readDt s = .next s.dt ∧ readSt s = .next s.st
    ∧ transact par .readScreen s = .next s ∧ transact par .readDt s = .next s ∧ transact par .readSt s = .next s

/-! Control transfer and skips (spec/41_flow_and_skip.md). -/

/-- R119: 1nnn sets PC to nnn and changes nothing else. -/
def Obligations.JumpSetsPc : Prop :=
  ∀ (nnn : BitVec 12) (s : State), Encodes (0x1000 + nnn.toNat) (.jp nnn)
    ∧ ∃ t, exec (.jp nnn) s = .next t ∧ t.pc.toNat = nnn.toNat ∧ ChangesOnly (· = .pc) s t

/-- R119's corner case, R110: in a state that is not faulted, a jump to its own address is a Step that changes no
state. -/
def Obligations.SelfJumpChangesNothing : Prop :=
  ∀ s : State, AtSelfJump s → step s = .next s

/-- R120: 2nnn writes the advanced PC into slot SP, raises SP by one and jumps; with 16 live entries it faults. That
the bound is 16 and is checked before any write is the spec's own decision D2 (log 12). -/
def Obligations.CallPushesTheAdvancedPc : Prop :=
  ∀ (nnn : BitVec 12) (s : State), Encodes (0x2000 + nnn.toNat) (.call nnn)
    ∧ (∀ j : Fin 16, j.val = s.sp.toNat → ∃ t, exec (.call nnn) s = .next t
        ∧ t.stack[j.val] = s.pc ∧ t.sp.toNat = s.sp.toNat + 1 ∧ t.pc.toNat = nnn.toNat
        ∧ ChangesOnly (fun p => p = .pc ∨ p = .sp ∨ p = .stack j) s t)
    ∧ (s.sp.toNat = 16 → exec (.call nnn) s = .fault .stackOverflow)

/-- R118: 00EE lowers SP by one and sets PC to the slot at the new depth, which keeps its content; with SP = 0 it
raises StackUnderflow. -/
def Obligations.ReturnPopsPc : Prop :=
  ∀ s : State, Encodes 0x00EE .ret
    ∧ (∀ j : Fin 16, j.val + 1 = s.sp.toNat → ∃ t, exec .ret s = .next t
        ∧ t.pc = s.stack[j.val] ∧ t.sp.toNat = j.val ∧ ChangesOnly (fun p => p = .pc ∨ p = .sp) s t)
    ∧ (s.sp.toNat = 0 → exec .ret s = .fault .stackUnderflow)

/-- With a depth above 16, for which there is no slot and which no run reaches (R25, R38), 2nnn and 00EE stop by name.
That they do is the model's choice (log 7). -/
def Obligations.DepthAboveSixteenIsRefused : Prop :=
  ∀ (nnn : BitVec 12) (s : State), 16 < s.sp.toNat →
    exec (.call nnn) s = .refused (.depthOutOfRange s.sp) ∧ exec .ret s = .refused (.depthOutOfRange s.sp)

/-- The document's test of 2nnn and 00EE (95_test_vectors.md T-SRC-8): a call followed at its target by a return goes
back to the word after the call, with SP as before and only the slot written. -/
def Obligations.CallThenReturnComesBack : Prop :=
  ∀ (nnn : BitVec 12) (s : State) (j : Fin 16), Fetches s (.call nnn) → j.val = s.sp.toNat → nnn.toNat < 4095 →
    Memory.peek s.mem nnn.toNat = 0x00 → Memory.peek s.mem (nnn.toNat + 1) = 0xEE →
    ∃ t, andThen (step s) step = .next t ∧ t.pc.toNat = s.pc.toNat + 2
      ∧ ChangesOnly (fun p => p = .pc ∨ p = .stack j) s t

/-- R121, R122: 3xkk skips exactly when Vx = kk, 4xkk exactly when Vx /= kk; a skip adds 2 to PC, nothing else changes. -/
def Obligations.SkipsOnImmediate : Prop :=
  ∀ (x : Reg) (kk : Byte) (s : State),
    Encodes (0x3000 + 256 * x.val + kk.toNat) (.seByte x kk)
    ∧ Encodes (0x4000 + 256 * x.val + kk.toNat) (.sneByte x kk)
    ∧ (∃ t, exec (.seByte x kk) s = .next t ∧ ChangesOnly (· = .pc) s t
        ∧ t.pc.toNat = if s.getV x = kk then (s.pc.toNat + 2) % 65536 else s.pc.toNat)
    ∧ (∃ t, exec (.sneByte x kk) s = .next t ∧ ChangesOnly (· = .pc) s t
        ∧ t.pc.toNat = if s.getV x = kk then s.pc.toNat else (s.pc.toNat + 2) % 65536)

/-- R123, R124: 5xy0 skips exactly when Vx = Vy, 9xy0 exactly when Vx /= Vy. -/
def Obligations.SkipsOnRegister : Prop :=
  ∀ (x y : Reg) (s : State),
    Encodes (0x5000 + 256 * x.val + 16 * y.val) (.seReg x y)
    ∧ Encodes (0x9000 + 256 * x.val + 16 * y.val) (.sneReg x y)
    ∧ (∃ t, exec (.seReg x y) s = .next t ∧ ChangesOnly (· = .pc) s t
        ∧ t.pc.toNat = if s.getV x = s.getV y then (s.pc.toNat + 2) % 65536 else s.pc.toNat)
    ∧ (∃ t, exec (.sneReg x y) s = .next t ∧ ChangesOnly (· = .pc) s t
        ∧ t.pc.toNat = if s.getV x = s.getV y then s.pc.toNat else (s.pc.toNat + 2) % 65536)

/-- R125: Bnnn sets PC to nnn + V0, the exact sum, not reduced modulo 4096. -/
def Obligations.JumpPlusV0 : Prop :=
  ∀ (nnn : BitVec 12) (s : State), Encodes (0xB000 + nnn.toNat) (.jpV0 nnn)
    ∧ ∃ t, exec (.jpV0 nnn) s = .next t ∧ t.pc.toNat = nnn.toNat + (s.getV 0).toNat ∧ ChangesOnly (· = .pc) s t

/-! Registers (spec/42_register_alu.md). -/

/-- R137, R139: 6xkk loads kk and 8xy0 loads Vy into Vx, VF included as a destination; nothing else changes. -/
def Obligations.LoadsIntoRegister : Prop :=
  ∀ (x y : Reg) (kk : Byte) (s : State),
    Encodes (0x6000 + 256 * x.val + kk.toNat) (.ldByte x kk)
    ∧ Encodes (0x8000 + 256 * x.val + 16 * y.val) (.ldReg x y)
    ∧ (∃ t, exec (.ldByte x kk) s = .next t ∧ t.getV x = kk ∧ ChangesOnly (· = .v x) s t)
    ∧ (∃ t, exec (.ldReg x y) s = .next t ∧ t.getV x = s.getV y ∧ ChangesOnly (· = .v x) s t)

/-- R138: 7xkk keeps the low 8 bits of Vx + kk and writes no flag. -/
def Obligations.AddImmediateWrapsWithoutFlag : Prop :=
  ∀ (x : Reg) (kk : Byte) (s : State), Encodes (0x7000 + 256 * x.val + kk.toNat) (.addByte x kk)
    ∧ ∃ t, exec (.addByte x kk) s = .next t ∧ (t.getV x).toNat = ((s.getV x).toNat + kk.toNat) % 256
      ∧ ChangesOnly (· = .v x) s t

/-- R140, R141, R142: 8xy1, 8xy2 and 8xy3 combine Vx and Vy bit by bit into Vx and change no other register, VF
included. -/
def Obligations.LogicWorksBitByBitAndKeepsVF : Prop :=
  ∀ (x y : Reg) (s : State),
    Encodes (0x8001 + 256 * x.val + 16 * y.val) (.orReg x y)
    ∧ Encodes (0x8002 + 256 * x.val + 16 * y.val) (.andReg x y)
    ∧ Encodes (0x8003 + 256 * x.val + 16 * y.val) (.xorReg x y)
    ∧ (∃ t, exec (.orReg x y) s = .next t ∧ ChangesOnly (· = .v x) s t
        ∧ ∀ k, k < 8 → (t.getV x).getLsbD k = ((s.getV x).getLsbD k || (s.getV y).getLsbD k))
    ∧ (∃ t, exec (.andReg x y) s = .next t ∧ ChangesOnly (· = .v x) s t
        ∧ ∀ k, k < 8 → (t.getV x).getLsbD k = ((s.getV x).getLsbD k && (s.getV y).getLsbD k))
    ∧ (∃ t, exec (.xorReg x y) s = .next t ∧ ChangesOnly (· = .v x) s t
        ∧ ∀ k, k < 8 → (t.getV x).getLsbD k = ((s.getV x).getLsbD k != (s.getV y).getLsbD k))

/-- R143: 8xy4 puts the low 8 bits of the exact sum into Vx and the carry into VF; with x = F the sum overwrites the
carry. -/
def Obligations.AddRegistersCarries : Prop :=
  ∀ (x y : Reg) (s : State), Encodes (0x8004 + 256 * x.val + 16 * y.val) (.addReg x y)
    ∧ ∃ t, exec (.addReg x y) s = .next t
      ∧ (t.getV x).toNat = ((s.getV x).toNat + (s.getV y).toNat) % 256
      ∧ (x ≠ 15 → (t.getV 15).toNat = if 255 < (s.getV x).toNat + (s.getV y).toNat then 1 else 0)
      ∧ ChangesOnly (fun p => p = .v x ∨ p = .v 15) s t

/-- R144, R146: 8xy5 and 8xy7 subtract modulo 256; VF is 1 exactly when the minuend is strictly greater. With x = F
the result overwrites the flag, and the operands are read before any write: the spec's own decision D3 (R135, R136;
log 8). -/
def Obligations.SubtractionsFlagStrictlyGreater : Prop :=
  ∀ (x y : Reg) (s : State),
    Encodes (0x8005 + 256 * x.val + 16 * y.val) (.sub x y)
    ∧ Encodes (0x8007 + 256 * x.val + 16 * y.val) (.subn x y)
    ∧ (∃ t, exec (.sub x y) s = .next t
        ∧ (t.getV x).toNat = ((s.getV x).toNat + 256 - (s.getV y).toNat) % 256
        ∧ (x ≠ 15 → (t.getV 15).toNat = if (s.getV y).toNat < (s.getV x).toNat then 1 else 0)
        ∧ ChangesOnly (fun p => p = .v x ∨ p = .v 15) s t)
    ∧ (∃ t, exec (.subn x y) s = .next t
        ∧ (t.getV x).toNat = ((s.getV y).toNat + 256 - (s.getV x).toNat) % 256
        ∧ (x ≠ 15 → (t.getV 15).toNat = if (s.getV x).toNat < (s.getV y).toNat then 1 else 0)
        ∧ ChangesOnly (fun p => p = .v x ∨ p = .v 15) s t)

/-- R145, R147, R81: 8xy6 and 8xyE shift Vx by one, filling with 0, and put the lost bit into VF; y is ignored. With
x = F the result overwrites the flag: the spec's own decision D3 (R135, R136; log 8). -/
def Obligations.ShiftsPutTheLostBitInVF : Prop :=
  ∀ (x y : Reg) (s : State),
    Encodes (0x8006 + 256 * x.val + 16 * y.val) (.shr x y)
    ∧ Encodes (0x800E + 256 * x.val + 16 * y.val) (.shl x y)
    ∧ (∃ t, exec (.shr x y) s = .next t
        ∧ (t.getV x).toNat = (s.getV x).toNat / 2
        ∧ (x ≠ 15 → (t.getV 15).toNat = (s.getV x).toNat % 2)
        ∧ ChangesOnly (fun p => p = .v x ∨ p = .v 15) s t)
    ∧ (∃ t, exec (.shl x y) s = .next t
        ∧ (t.getV x).toNat = (s.getV x).toNat * 2 % 256
        ∧ (x ≠ 15 → (t.getV 15).toNat = (s.getV x).toNat / 128)
        ∧ ChangesOnly (fun p => p = .v x ∨ p = .v 15) s t)

/-- Cxkk puts the random byte of this draw, masked by kk, into Vx and changes no other register (R148). The byte is a
free value, of which nothing is said (R149; log 3); the counter that numbers the draws, raised by one, is the model's
own (log 4). -/
def Obligations.RandomByteIsMasked : Prop :=
  ∀ (x : Reg) (kk : Byte) (s : State), Encodes (0xC000 + 256 * x.val + kk.toNat) (.rnd x kk)
    ∧ ∃ t, exec (.rnd x kk) s = .next t
      ∧ (∀ k, k < 8 → (t.getV x).getLsbD k = ((Config.random8 s.draws).getLsbD k && kk.getLsbD k))
      ∧ t.draws = s.draws + 1 ∧ ChangesOnly (fun p => p = .v x ∨ p = .draws) s t

/-! Index register and memory (spec/43_index_and_memory.md, spec/20_memory.md). -/

/-- R161: Annn sets I to nnn. -/
def Obligations.LoadIndex : Prop :=
  ∀ (nnn : BitVec 12) (s : State), Encodes (0xA000 + nnn.toNat) (.ldI nnn)
    ∧ ∃ t, exec (.ldI nnn) s = .next t ∧ t.i.toNat = nnn.toNat ∧ ChangesOnly (· = .i) s t

/-- R162: Fx1E keeps the low 16 bits of I + Vx and writes no flag. -/
def Obligations.AddToIndexWrapsWithoutFlag : Prop :=
  ∀ (x : Reg) (s : State), Encodes (0xF01E + 256 * x.val) (.addI x)
    ∧ ∃ t, exec (.addI x) s = .next t ∧ t.i.toNat = (s.i.toNat + (s.getV x).toNat) % 65536
      ∧ ChangesOnly (· = .i) s t

/-- R163: Fx29 sets I to the exact product Vx * 5. That it is formed in 16 bits and not masked is the spec's own
decision D5 (log 10). -/
def Obligations.GlyphAddressIsFiveTimesVx : Prop :=
  ∀ (x : Reg) (s : State), Encodes (0xF029 + 256 * x.val) (.ldF x)
    ∧ ∃ t, exec (.ldF x) s = .next t ∧ t.i.toNat = 5 * (s.getV x).toNat ∧ ChangesOnly (· = .i) s t

/-- R164: Fx33 stores the hundreds, tens and ones digit of Vx at I, I+1, I+2 and faults at the first of them that is
4096 or more. -/
def Obligations.DecimalDigitsAreStored : Prop :=
  ∀ (x : Reg) (s : State), Encodes (0xF033 + 256 * x.val) (.ldB x)
    ∧ (s.i.toNat ≤ 4093 → ∃ t, exec (.ldB x) s = .next t
        ∧ (Memory.peek t.mem s.i.toNat).toNat = (s.getV x).toNat / 100
        ∧ (Memory.peek t.mem (s.i.toNat + 1)).toNat = (s.getV x).toNat / 10 % 10
        ∧ (Memory.peek t.mem (s.i.toNat + 2)).toNat = (s.getV x).toNat % 10
        ∧ ChangesOnly (fun p => ∃ k, k < 3 ∧ p = .mem (s.i.toNat + k)) s t)
    ∧ (4093 < s.i.toNat → exec (.ldB x) s = .fault (.outOfBoundsMemoryAccess (max s.i.toNat 4096)))

/-- R165: Fx55 stores V0 to Vx at I to I + x and nothing else; it faults when I + x is above 4095. -/
def Obligations.RegistersAreStoredAtI : Prop :=
  ∀ (x : Reg) (s : State), Encodes (0xF055 + 256 * x.val) (.ldMemVx x)
    ∧ (s.i.toNat + x.val ≤ 4095 → ∃ t, exec (.ldMemVx x) s = .next t
        ∧ (∀ r : Reg, r ≤ x → Memory.peek t.mem (s.i.toNat + r.val) = s.getV r)
        ∧ ChangesOnly (fun p => ∃ k, k ≤ x.val ∧ p = .mem (s.i.toNat + k)) s t)
    ∧ (4095 < s.i.toNat + x.val → exec (.ldMemVx x) s = .fault (.outOfBoundsMemoryAccess (max s.i.toNat 4096)))

/-- R166: Fx65 loads V0 to Vx from I to I + x and changes no other register, no byte and not I; it faults when I + x
is above 4095. -/
def Obligations.RegistersAreLoadedFromI : Prop :=
  ∀ (x : Reg) (s : State), Encodes (0xF065 + 256 * x.val) (.ldVxMem x)
    ∧ (s.i.toNat + x.val ≤ 4095 → ∃ t, exec (.ldVxMem x) s = .next t
        ∧ (∀ r : Reg, r ≤ x → t.getV r = Memory.peek s.mem (s.i.toNat + r.val))
        ∧ ChangesOnly (fun p => ∃ r : Reg, r ≤ x ∧ p = .v r) s t)
    ∧ (4095 < s.i.toNat + x.val → exec (.ldVxMem x) s = .fault (.outOfBoundsMemoryAccess (max s.i.toNat 4096)))

/-- What Fx55 stored, Fx65 with the same x loads back, whatever the registers hold meanwhile (R165, R166). -/
def Obligations.StoredRegistersLoadBack : Prop :=
  ∀ (x : Reg) (s t : State) (v : Vector Byte 16), exec (.ldMemVx x) s = .next t →
    ∃ u, exec (.ldVxMem x) { t with v := v } = .next u
      ∧ (∀ r : Reg, r ≤ x → u.getV r = s.getV r) ∧ ∀ r : Reg, x < r → u.getV r = v[r.val]

/-- R52, R53: a byte written at an address below 4096 reads back and no other byte changes; an access at 4096 or above
faults with that address. -/
def Obligations.MemoryRoundTrip : Prop :=
  ∀ (a : Nat) (b : Byte) (s : State),
    (a < 4096 → memRead a s = .next (Memory.peek s.mem a) ∧ ∃ t, memWrite a b s = .next t ∧ memRead a t = .next b
      ∧ ChangesOnly (· = .mem a) s t)
    ∧ (4096 ≤ a → memRead a s = .fault (.outOfBoundsMemoryAccess a)
      ∧ memWrite a b s = .fault (.outOfBoundsMemoryAccess a))

/-- R65: a store is seen by the next fetch. When Fx55 with x at least 1 stores at the address PC has advanced to, the
next fetch reads the word V0, V1. -/
def Obligations.StoreIsSeenByTheNextFetch : Prop :=
  ∀ (x : Reg) (s t : State), 1 ≤ x.val → s.i = s.pc → exec (.ldMemVx x) s = .next t →
    ∃ op u, fetch t = .next (op, u) ∧ op.toNat = (s.getV 0).toNat * 256 + (s.getV 1).toNat

/-! Screen (spec/44_screen.md). -/

/-- R179: 00E0 clears all 2048 pixels whatever they were and changes nothing else. -/
def Obligations.ClearScreenClearsEveryPixel : Prop :=
  ∀ s : State, Encodes 0x00E0 .cls ∧ ∃ t, exec .cls s = .next t ∧ (∀ r c, Screen.get t.pix r c = false)
    ∧ ChangesOnly (fun p => ∃ r c, p = .pix r c) s t

/-- R178, R180: Dxyn inverts exactly the pixels under the 1 bits of its n bytes, wrapped at both edges, and sets VF to
1 exactly when one of them was set; it faults when I + n is above 4096. The range check and the case n = 0 are the
spec's own decision D7 (log 11). -/
def Obligations.DrawInvertsThePixelsUnderOneBits : Prop :=
  ∀ (x y : Reg) (n : Nat) (s : State), n < 16 → Encodes (0xD000 + 256 * x.val + 16 * y.val + n) (.drw x y n)
    ∧ (s.i.toNat + n ≤ 4096 → ∃ t, exec (.drw x y n) s = .next t
        ∧ (∀ r c, Covered (s.getV x) (s.getV y) (spriteBytes s n) r c → Screen.get t.pix r c = !Screen.get s.pix r c)
        ∧ (∀ r c, ¬ Covered (s.getV x) (s.getV y) (spriteBytes s n) r c → Screen.get t.pix r c = Screen.get s.pix r c)
        ∧ ((∃ r c, Covered (s.getV x) (s.getV y) (spriteBytes s n) r c ∧ Screen.get s.pix r c = true)
            → (t.getV 15).toNat = 1)
        ∧ ((¬ ∃ r c, Covered (s.getV x) (s.getV y) (spriteBytes s n) r c ∧ Screen.get s.pix r c = true)
            → (t.getV 15).toNat = 0)
        ∧ ChangesOnly (fun p => p = .v 15 ∨ ∃ r c, p = .pix r c) s t)
    ∧ (4096 < s.i.toNat + n → exec (.drw x y n) s = .fault (.outOfBoundsMemoryAccess (s.i.toNat + n - 1)))

/-- R182: drawing the same sprite twice at the same coordinates restores the grid, and the second draw reports a
collision exactly when the first left a pixel under a 1 bit set. -/
def Obligations.DrawingTwiceRestoresTheGrid : Prop :=
  ∀ (x y : Byte) (bytes : List Byte) (p : Screen), bytes.length ≤ 15 →
    (drawSprite x y bytes (drawSprite x y bytes p).1).1 = p
    ∧ ((drawSprite x y bytes (drawSprite x y bytes p).1).2 = true ↔
        ∃ r c, Covered x y bytes r c ∧ Screen.get (drawSprite x y bytes p).1 r c = true)

/-! Keys and timers (spec/45_keys_and_timers.md). -/

/-- R193, R194: Ex9E skips exactly when the key Vx names is down, ExA1 exactly when it is not. That a value of 16 or
more names no key, so that Ex9E never and ExA1 always skips, is the spec's own decision D4 (R191; log 9). -/
def Obligations.SkipsOnKey : Prop :=
  ∀ (x : Reg) (s : State),
    Encodes (0xE09E + 256 * x.val) (.skp x) ∧ Encodes (0xE0A1 + 256 * x.val) (.sknp x)
    ∧ ∃ t u, exec (.skp x) s = .next t ∧ exec (.sknp x) s = .next u
      ∧ ChangesOnly (· = .pc) s t ∧ ChangesOnly (· = .pc) s u
      ∧ ((∃ k : Key, k.val = (s.getV x).toNat ∧ s.keyDown k = true) →
          t.pc.toNat = (s.pc.toNat + 2) % 65536 ∧ u.pc = s.pc)
      ∧ ((¬ ∃ k : Key, k.val = (s.getV x).toNat ∧ s.keyDown k = true) →
          t.pc = s.pc ∧ u.pc.toNat = (s.pc.toNat + 2) % 65536)

/-- R195: with a key down Fx0A completes with the highest such key in Vx; with none PC goes back by 2 and nothing
else changes. -/
def Obligations.KeyWaitTakesTheHighestKey : Prop :=
  ∀ (x : Reg) (s : State), Encodes (0xF00A + 256 * x.val) (.ldVxK x)
    ∧ (∀ k : Key, s.keyDown k = true → (∀ j : Key, k < j → s.keyDown j = false) →
        ∃ t, exec (.ldVxK x) s = .next t ∧ (t.getV x).toNat = k.val ∧ ChangesOnly (· = .v x) s t)
    ∧ ((∀ k : Key, s.keyDown k = false) →
        ∃ t, exec (.ldVxK x) s = .next t ∧ t.pc.toNat = (s.pc.toNat + 65534) % 65536 ∧ ChangesOnly (· = .pc) s t)

/-- R195 (c), R196: while PC addresses an Fx0A word and no key is down, a Step completes and changes nothing at all. -/
def Obligations.KeyWaitStepChangesNothing : Prop :=
  ∀ (x : Reg) (s : State), Fetches s (.ldVxK x) → (∀ k : Key, s.keyDown k = false) → step s = .next s

/-- R197, R198, R199: Fx07 copies DT to Vx, Fx15 copies Vx to DT, Fx18 copies Vx to ST; nothing else changes. -/
def Obligations.TimerMoves : Prop :=
  ∀ (x : Reg) (s : State),
    Encodes (0xF007 + 256 * x.val) (.ldVxDt x) ∧ Encodes (0xF015 + 256 * x.val) (.ldDtVx x)
    ∧ Encodes (0xF018 + 256 * x.val) (.ldStVx x)
    ∧ (∃ t, exec (.ldVxDt x) s = .next t ∧ t.getV x = s.dt ∧ ChangesOnly (· = .v x) s t)
    ∧ (∃ t, exec (.ldDtVx x) s = .next t ∧ t.dt = s.getV x ∧ ChangesOnly (· = .dt) s t)
    ∧ (∃ t, exec (.ldStVx x) s = .next t ∧ t.st = s.getV x ∧ ChangesOnly (· = .st) s t)
end

