-- ==== Sys2Proof/Laws/Decode.lean ====
section
/-! SUPPORT. Words as numbers: what the masks of the opcode map keep, what the encoder of each format gives, and the
fields of a word read back as digits (spec/30_encoding.md R76, R79, R88). -/

namespace Sys2Proof

theorem mask_F000 (op : Word) : (op &&& 0xF000#16).toNat = op.toNat / 4096 * 4096 := by
  have h : op &&& 0xF000#16 = (op >>> 12) <<< 12 := by
    apply BitVec.eq_of_getLsbD_eq
    intro i hi
    interval_cases i <;> simp
  rw [h, BitVec.toNat_shiftLeft, BitVec.toNat_ushiftRight, Nat.shiftLeft_eq, Nat.shiftRight_eq_div_pow]
  have := op.isLt
  omega

theorem mask_low4 (op : Word) : (op &&& 0x000F#16).toNat = op.toNat % 16 := by
  rw [BitVec.toNat_and]
  exact Nat.and_two_pow_sub_one_eq_mod op.toNat 4

theorem mask_low8 (op : Word) : (op &&& 0x00FF#16).toNat = op.toNat % 256 := by
  rw [BitVec.toNat_and]
  exact Nat.and_two_pow_sub_one_eq_mod op.toNat 8

theorem mask_F00F (op : Word) : (op &&& 0xF00F#16).toNat = op.toNat / 4096 * 4096 + op.toNat % 16 := by
  have h : op &&& 0xF00F#16 = (op &&& 0xF000#16) + (op &&& 0x000F#16) := by
    rw [BitVec.add_eq_or_of_and_eq_zero]
    · rw [← BitVec.and_or_distrib_left]; rfl
    · apply BitVec.eq_of_getLsbD_eq
      intro i hi
      interval_cases i <;> simp
  rw [h, BitVec.toNat_add, mask_F000, mask_low4]
  have := op.isLt
  omega

theorem mask_F0FF (op : Word) : (op &&& 0xF0FF#16).toNat = op.toNat / 4096 * 4096 + op.toNat % 256 := by
  have h : op &&& 0xF0FF#16 = (op &&& 0xF000#16) + (op &&& 0x00FF#16) := by
    rw [BitVec.add_eq_or_of_and_eq_zero]
    · rw [← BitVec.and_or_distrib_left]; rfl
    · apply BitVec.eq_of_getLsbD_eq
      intro i hi
      interval_cases i <;> simp
  rw [h, BitVec.toNat_add, mask_F000, mask_low8]
  have := op.isLt
  omega

theorem mask_FFFF (op : Word) : (op &&& 0xFFFF#16).toNat = op.toNat := by
  rw [BitVec.toNat_and]
  exact (Nat.and_two_pow_sub_one_eq_mod op.toNat 16).trans (Nat.mod_eq_of_lt op.isLt)

/-- `op & mask = match`, read on numbers, for the four masks of the opcode map (R79). -/
theorem selects_iff (r : Row) (op : Word) : r.selects op = true ↔ (op &&& r.mask).toNat = r.pattern.toNat := by
  rw [Row.selects, beq_iff_eq, BitVec.toNat_inj]

/-! The fields as digits. -/

theorem fieldX_val (op : Word) : (fieldX op).val = op.toNat / 256 % 16 := rfl
theorem fieldY_val (op : Word) : (fieldY op).val = op.toNat / 16 % 16 := rfl
theorem fieldN_eq (op : Word) : fieldN op = op.toNat % 16 := by
  show op.toNat / 2 ^ 0 % 16 = _
  omega

theorem fieldKk_toNat (op : Word) : (fieldKk op).toNat = op.toNat % 256 := by
  rw [fieldKk, BitVec.toNat_ofNat]
  show op.toNat / 2 ^ 0 % 256 % 256 = _
  omega

theorem fieldNnn_toNat (op : Word) : (fieldNnn op).toNat = op.toNat % 4096 := by
  rw [fieldNnn, BitVec.toNat_ofNat]
  show op.toNat / 2 ^ 0 % 4096 % 4096 = _
  omega

/-! Bytes of a word. -/

@[simp] theorem wordOf_toNat (hi lo : Byte) : (wordOf hi lo).toNat = hi.toNat * 256 + lo.toNat := by
  rw [wordOf, BitVec.toNat_ofNat]
  have := hi.isLt
  have := lo.isLt
  omega

theorem highByte_toNat (op : Word) : (highByte op).toNat = op.toNat / 256 := by
  rw [highByte, BitVec.toNat_ofNat]
  show op.toNat / 2 ^ 8 % 2 ^ 8 % 2 ^ 8 = _
  have := op.isLt
  omega

theorem lowByte_toNat (op : Word) : (lowByte op).toNat = op.toNat % 256 := by
  rw [lowByte, BitVec.toNat_ofNat]
  show op.toNat / 2 ^ 0 % 2 ^ 8 % 2 ^ 8 = _
  omega

/-- Laying a word out as two bytes and reading it back gives the word (R56, R88). -/
@[simp] theorem wordOf_bytes (op : Word) : wordOf (highByte op) (lowByte op) = op := by
  apply BitVec.eq_of_toNat_eq
  rw [wordOf_toNat, highByte_toNat, lowByte_toNat]
  omega

/-! The encoders as sums: the fields of a format do not overlap (R76). -/

theorem toNat_or_of_and {a b : Word} (h : a &&& b = 0#16) : (a ||| b).toNat = (a.toNat + b.toNat) % 65536 := by
  rw [← BitVec.add_eq_or_of_and_eq_zero _ _ h, BitVec.toNat_add]

theorem toNat_or_low {a b : Word} (k : Nat) (ha : a.toNat % 2 ^ k = 0) (hb : b.toNat < 2 ^ k) :
    (a ||| b).toNat = a.toNat + b.toNat := by
  rw [BitVec.toNat_or]
  obtain ⟨q, hq⟩ := Nat.dvd_of_mod_eq_zero ha
  rw [hq, Nat.two_pow_add_eq_or_of_lt hb q]

theorem shifted_toNat (x : Reg) (k : Nat) (hk : k = 4 ∨ k = 8) :
    (BitVec.ofNat 16 x.val <<< k).toNat = x.val * 2 ^ k := by
  rw [BitVec.toNat_shiftLeft, BitVec.toNat_ofNat, Nat.shiftLeft_eq]
  have := x.isLt
  rcases hk with rfl | rfl <;> omega

theorem encA_toNat (m : Word) (nnn : BitVec 12) (hm : m.toNat % 4096 = 0) :
    (encA m nnn).toNat = m.toNat + nnn.toNat := by
  have h := nnn.isLt
  have h2 : (nnn.setWidth 16).toNat = nnn.toNat := by rw [BitVec.toNat_setWidth]; omega
  rw [encA, toNat_or_low 12 hm (by omega), h2]

/-- Putting a 4-bit field where a word has a zero digit adds it. -/
theorem or_field_toNat (a : Word) (x : Reg) (k : Nat) (hk : k = 4 ∨ k = 8) (ha : a.toNat / 2 ^ k % 16 = 0) :
    (a ||| (BitVec.ofNat 16 x.val <<< k)).toNat = a.toNat + x.val * 2 ^ k := by
  have h := shifted_toNat x k hk
  have hx := x.isLt
  rw [toNat_or_of_and, h]
  · have := a.isLt
    rcases hk with rfl | rfl <;> omega
  · apply BitVec.eq_of_toNat_eq
    rw [BitVec.toNat_and, h]
    apply Nat.eq_of_testBit_eq
    intro i
    rw [Nat.testBit_and, Nat.testBit_mul_two_pow]
    by_cases hi : k ≤ i
    · by_cases h4 : i - k < 4
      · have h3 : (a.toNat / 2 ^ k % 2 ^ 4).testBit (i - k) = a.toNat.testBit i := by
          rw [Nat.testBit_mod_two_pow, Nat.testBit_div_two_pow]
          simp only [h4, show i - k + k = i by omega, decide_true, Bool.true_and]
        rw [← h3, show a.toNat / 2 ^ k % 2 ^ 4 = 0 from ha]
        simp
      · have hx0 : x.val.testBit (i - k) = false :=
          Nat.testBit_lt_two_pow (Nat.lt_of_lt_of_le hx (Nat.pow_le_pow_right (n := 2) (i := 4) (by decide) (by omega)))
        simp [hx0]
    · simp [hi]

theorem encXS_toNat (m : Word) (x : Reg) (hm : m.toNat / 256 % 16 = 0) :
    (encXS m x).toNat = m.toNat + 256 * x.val := by
  rw [encXS, or_field_toNat m x 8 (.inr rfl) hm]
  omega

theorem encXK_toNat (m : Word) (x : Reg) (kk : Byte) (hm : m.toNat % 4096 = 0) :
    (encXK m x kk).toNat = m.toNat + 256 * x.val + kk.toNat := by
  have h := kk.isLt
  have h2 : (kk.setWidth 16).toNat = kk.toNat := by rw [BitVec.toNat_setWidth]; omega
  have h3 := encXS_toNat m x (by omega)
  rw [encXS] at h3
  rw [encXK, toNat_or_low 8 (by rw [h3]; omega) (by omega), h3, h2]

theorem encXY_toNat (m : Word) (x y : Reg) (hx : m.toNat / 256 % 16 = 0) (hy : m.toNat / 16 % 16 = 0) :
    (encXY m x y).toNat = m.toNat + 256 * x.val + 16 * y.val := by
  have h3 := encXS_toNat m x hx
  rw [encXS] at h3
  rw [encXY, or_field_toNat _ y 4 (.inl rfl) (by rw [h3]; omega), h3]
  omega

theorem encXYN_toNat (m : Word) (x y : Reg) (n : Nat) (hm : m.toNat % 4096 = 0) (hn : n < 16) :
    (encXYN m x y n).toNat = m.toNat + 256 * x.val + 16 * y.val + n := by
  have h2 : (BitVec.ofNat 16 n).toNat = n := by rw [BitVec.toNat_ofNat]; omega
  have h3 := encXY_toNat m x y (by omega) (by omega)
  rw [encXY] at h3
  rw [encXYN, toNat_or_low 4 (by rw [h3]; omega) (by omega), h3, h2]

/-! A row's test on digits, mask by mask (R79), and the search through the rows. -/

theorem selects_maskFFFF (op m : Word) (b : Word → Instr) :
    Row.selects ⟨0xFFFF, m, b⟩ op = decide (op.toNat = m.toNat) := by
  rw [Bool.eq_iff_iff, selects_iff, decide_eq_true_iff]
  exact (mask_FFFF op) ▸ Iff.rfl

theorem selects_maskF000 (op m : Word) (b : Word → Instr) :
    Row.selects ⟨0xF000, m, b⟩ op = decide (op.toNat / 4096 * 4096 = m.toNat) := by
  rw [Bool.eq_iff_iff, selects_iff, decide_eq_true_iff]
  exact (mask_F000 op) ▸ Iff.rfl

theorem selects_maskF00F (op m : Word) (b : Word → Instr) :
    Row.selects ⟨0xF00F, m, b⟩ op = decide (op.toNat / 4096 * 4096 + op.toNat % 16 = m.toNat) := by
  rw [Bool.eq_iff_iff, selects_iff, decide_eq_true_iff]
  exact (mask_F00F op) ▸ Iff.rfl

theorem selects_maskF0FF (op m : Word) (b : Word → Instr) :
    Row.selects ⟨0xF0FF, m, b⟩ op = decide (op.toNat / 4096 * 4096 + op.toNat % 256 = m.toNat) := by
  rw [Bool.eq_iff_iff, selects_iff, decide_eq_true_iff]
  exact (mask_F0FF op) ▸ Iff.rfl

/-- An answer of the search is what one of the selecting rows builds. -/
theorem selectRow_some {rows : List Row} {op : Word} {i : Instr} (h : selectRow rows op = some i) :
    ∃ r ∈ rows, r.selects op = true ∧ r.build op = i := by
  induction rows with
  | nil => cases h
  | cons r rs ih =>
    rw [selectRow] at h
    split at h
    · exact ⟨r, List.mem_cons_self .., ‹_›, by simpa using h⟩
    · obtain ⟨q, hq, h1⟩ := ih h
      exact ⟨q, List.mem_cons_of_mem _ hq, h1⟩

/-- The search fails exactly when no row selects the word. -/
theorem selectRow_none_iff {rows : List Row} {op : Word} :
    selectRow rows op = none ↔ ∀ r ∈ rows, r.selects op = false := by
  induction rows with
  | nil => simp [selectRow]
  | cons r rs ih =>
    rw [selectRow]
    cases h : r.selects op <;> simp [h, ih]

/-- Two rows whose patterns differ on a bit both fix never select one word. -/
theorem selects_exclusive {a b : Row} (h : (a.pattern &&& b.mask) ≠ (b.pattern &&& a.mask)) (op : Word)
    (ha : a.selects op = true) : b.selects op = false := by
  rw [Bool.eq_false_iff]
  intro hb
  simp only [Row.selects, beq_iff_eq] at ha hb
  apply h
  rw [← ha, ← hb, BitVec.and_assoc, BitVec.and_assoc, BitVec.and_comm a.mask]

/-- The rows' match sets are disjoint (R87). -/
theorem opcodeRows_disjoint :
    opcodeRows.Pairwise fun a b => (a.pattern &&& b.mask) ≠ (b.pattern &&& a.mask) := by
  decide +kernel

/-- With disjoint rows the search answers what the one selecting row builds. -/
theorem selectRow_of_mem {rows : List Row} {op : Word} {r : Row}
    (hu : rows.Pairwise fun a b => (a.pattern &&& b.mask) ≠ (b.pattern &&& a.mask)) (hr : r ∈ rows)
    (h : r.selects op = true) : selectRow rows op = some (r.build op) := by
  induction rows with
  | nil => cases hr
  | cons q qs ih =>
    obtain ⟨h1, h2⟩ := List.pairwise_cons.1 hu
    rw [selectRow]
    rcases List.mem_cons.1 hr with rfl | hr
    · rw [if_pos h]
    · rw [if_neg, ih h2 hr]
      intro hq
      simpa [h] using selects_exclusive (h1 r hr) op hq

end Sys2Proof
end

