-- ==== Sys2Proof/Laws/State.lean ====
section
/-! SUPPORT. One lemma per field per setter, true by rfl; the derived reads (register, key, slot, pixel) after a
setter; and the frame of each setter. Later proofs cite these and unfold no record update. -/

namespace Sys2Proof.Machine

@[simp] theorem setV_v (s : State) (r : Reg) (b : Byte) : (s.setV r b).v = s.v.set r.val b r.isLt := rfl
@[simp] theorem setV_i (s : State) (r : Reg) (b : Byte) : (s.setV r b).i = s.i := rfl
@[simp] theorem setV_pc (s : State) (r : Reg) (b : Byte) : (s.setV r b).pc = s.pc := rfl
@[simp] theorem setV_sp (s : State) (r : Reg) (b : Byte) : (s.setV r b).sp = s.sp := rfl
@[simp] theorem setV_dt (s : State) (r : Reg) (b : Byte) : (s.setV r b).dt = s.dt := rfl
@[simp] theorem setV_st (s : State) (r : Reg) (b : Byte) : (s.setV r b).st = s.st := rfl
@[simp] theorem setV_stack (s : State) (r : Reg) (b : Byte) : (s.setV r b).stack = s.stack := rfl
@[simp] theorem setV_mem (s : State) (r : Reg) (b : Byte) : (s.setV r b).mem = s.mem := rfl
@[simp] theorem setV_pix (s : State) (r : Reg) (b : Byte) : (s.setV r b).pix = s.pix := rfl
@[simp] theorem setV_key (s : State) (r : Reg) (b : Byte) : (s.setV r b).key = s.key := rfl
@[simp] theorem setV_fault (s : State) (r : Reg) (b : Byte) : (s.setV r b).fault = s.fault := rfl
@[simp] theorem setV_draws (s : State) (r : Reg) (b : Byte) : (s.setV r b).draws = s.draws := rfl

@[simp] theorem setI_v (s : State) (w : Word) : (s.setI w).v = s.v := rfl
@[simp] theorem setI_i (s : State) (w : Word) : (s.setI w).i = w := rfl
@[simp] theorem setI_pc (s : State) (w : Word) : (s.setI w).pc = s.pc := rfl
@[simp] theorem setI_sp (s : State) (w : Word) : (s.setI w).sp = s.sp := rfl
@[simp] theorem setI_dt (s : State) (w : Word) : (s.setI w).dt = s.dt := rfl
@[simp] theorem setI_st (s : State) (w : Word) : (s.setI w).st = s.st := rfl
@[simp] theorem setI_stack (s : State) (w : Word) : (s.setI w).stack = s.stack := rfl
@[simp] theorem setI_mem (s : State) (w : Word) : (s.setI w).mem = s.mem := rfl
@[simp] theorem setI_pix (s : State) (w : Word) : (s.setI w).pix = s.pix := rfl
@[simp] theorem setI_key (s : State) (w : Word) : (s.setI w).key = s.key := rfl
@[simp] theorem setI_fault (s : State) (w : Word) : (s.setI w).fault = s.fault := rfl
@[simp] theorem setI_draws (s : State) (w : Word) : (s.setI w).draws = s.draws := rfl

@[simp] theorem setPc_v (s : State) (w : Word) : (s.setPc w).v = s.v := rfl
@[simp] theorem setPc_i (s : State) (w : Word) : (s.setPc w).i = s.i := rfl
@[simp] theorem setPc_pc (s : State) (w : Word) : (s.setPc w).pc = w := rfl
@[simp] theorem setPc_sp (s : State) (w : Word) : (s.setPc w).sp = s.sp := rfl
@[simp] theorem setPc_dt (s : State) (w : Word) : (s.setPc w).dt = s.dt := rfl
@[simp] theorem setPc_st (s : State) (w : Word) : (s.setPc w).st = s.st := rfl
@[simp] theorem setPc_stack (s : State) (w : Word) : (s.setPc w).stack = s.stack := rfl
@[simp] theorem setPc_mem (s : State) (w : Word) : (s.setPc w).mem = s.mem := rfl
@[simp] theorem setPc_pix (s : State) (w : Word) : (s.setPc w).pix = s.pix := rfl
@[simp] theorem setPc_key (s : State) (w : Word) : (s.setPc w).key = s.key := rfl
@[simp] theorem setPc_fault (s : State) (w : Word) : (s.setPc w).fault = s.fault := rfl
@[simp] theorem setPc_draws (s : State) (w : Word) : (s.setPc w).draws = s.draws := rfl

@[simp] theorem setSp_v (s : State) (b : Byte) : (s.setSp b).v = s.v := rfl
@[simp] theorem setSp_i (s : State) (b : Byte) : (s.setSp b).i = s.i := rfl
@[simp] theorem setSp_pc (s : State) (b : Byte) : (s.setSp b).pc = s.pc := rfl
@[simp] theorem setSp_sp (s : State) (b : Byte) : (s.setSp b).sp = b := rfl
@[simp] theorem setSp_dt (s : State) (b : Byte) : (s.setSp b).dt = s.dt := rfl
@[simp] theorem setSp_st (s : State) (b : Byte) : (s.setSp b).st = s.st := rfl
@[simp] theorem setSp_stack (s : State) (b : Byte) : (s.setSp b).stack = s.stack := rfl
@[simp] theorem setSp_mem (s : State) (b : Byte) : (s.setSp b).mem = s.mem := rfl
@[simp] theorem setSp_pix (s : State) (b : Byte) : (s.setSp b).pix = s.pix := rfl
@[simp] theorem setSp_key (s : State) (b : Byte) : (s.setSp b).key = s.key := rfl
@[simp] theorem setSp_fault (s : State) (b : Byte) : (s.setSp b).fault = s.fault := rfl
@[simp] theorem setSp_draws (s : State) (b : Byte) : (s.setSp b).draws = s.draws := rfl

@[simp] theorem setDt_v (s : State) (b : Byte) : (s.setDt b).v = s.v := rfl
@[simp] theorem setDt_i (s : State) (b : Byte) : (s.setDt b).i = s.i := rfl
@[simp] theorem setDt_pc (s : State) (b : Byte) : (s.setDt b).pc = s.pc := rfl
@[simp] theorem setDt_sp (s : State) (b : Byte) : (s.setDt b).sp = s.sp := rfl
@[simp] theorem setDt_dt (s : State) (b : Byte) : (s.setDt b).dt = b := rfl
@[simp] theorem setDt_st (s : State) (b : Byte) : (s.setDt b).st = s.st := rfl
@[simp] theorem setDt_stack (s : State) (b : Byte) : (s.setDt b).stack = s.stack := rfl
@[simp] theorem setDt_mem (s : State) (b : Byte) : (s.setDt b).mem = s.mem := rfl
@[simp] theorem setDt_pix (s : State) (b : Byte) : (s.setDt b).pix = s.pix := rfl
@[simp] theorem setDt_key (s : State) (b : Byte) : (s.setDt b).key = s.key := rfl
@[simp] theorem setDt_fault (s : State) (b : Byte) : (s.setDt b).fault = s.fault := rfl
@[simp] theorem setDt_draws (s : State) (b : Byte) : (s.setDt b).draws = s.draws := rfl

@[simp] theorem setSt_v (s : State) (b : Byte) : (s.setSt b).v = s.v := rfl
@[simp] theorem setSt_i (s : State) (b : Byte) : (s.setSt b).i = s.i := rfl
@[simp] theorem setSt_pc (s : State) (b : Byte) : (s.setSt b).pc = s.pc := rfl
@[simp] theorem setSt_sp (s : State) (b : Byte) : (s.setSt b).sp = s.sp := rfl
@[simp] theorem setSt_dt (s : State) (b : Byte) : (s.setSt b).dt = s.dt := rfl
@[simp] theorem setSt_st (s : State) (b : Byte) : (s.setSt b).st = b := rfl
@[simp] theorem setSt_stack (s : State) (b : Byte) : (s.setSt b).stack = s.stack := rfl
@[simp] theorem setSt_mem (s : State) (b : Byte) : (s.setSt b).mem = s.mem := rfl
@[simp] theorem setSt_pix (s : State) (b : Byte) : (s.setSt b).pix = s.pix := rfl
@[simp] theorem setSt_key (s : State) (b : Byte) : (s.setSt b).key = s.key := rfl
@[simp] theorem setSt_fault (s : State) (b : Byte) : (s.setSt b).fault = s.fault := rfl
@[simp] theorem setSt_draws (s : State) (b : Byte) : (s.setSt b).draws = s.draws := rfl

@[simp] theorem setStack_v (s : State) (j : Fin 16) (w : Word) : (s.setStack j w).v = s.v := rfl
@[simp] theorem setStack_i (s : State) (j : Fin 16) (w : Word) : (s.setStack j w).i = s.i := rfl
@[simp] theorem setStack_pc (s : State) (j : Fin 16) (w : Word) : (s.setStack j w).pc = s.pc := rfl
@[simp] theorem setStack_sp (s : State) (j : Fin 16) (w : Word) : (s.setStack j w).sp = s.sp := rfl
@[simp] theorem setStack_dt (s : State) (j : Fin 16) (w : Word) : (s.setStack j w).dt = s.dt := rfl
@[simp] theorem setStack_st (s : State) (j : Fin 16) (w : Word) : (s.setStack j w).st = s.st := rfl
@[simp] theorem setStack_stack (s : State) (j : Fin 16) (w : Word) : (s.setStack j w).stack = s.stack.set j.val w j.isLt := rfl
@[simp] theorem setStack_mem (s : State) (j : Fin 16) (w : Word) : (s.setStack j w).mem = s.mem := rfl
@[simp] theorem setStack_pix (s : State) (j : Fin 16) (w : Word) : (s.setStack j w).pix = s.pix := rfl
@[simp] theorem setStack_key (s : State) (j : Fin 16) (w : Word) : (s.setStack j w).key = s.key := rfl
@[simp] theorem setStack_fault (s : State) (j : Fin 16) (w : Word) : (s.setStack j w).fault = s.fault := rfl
@[simp] theorem setStack_draws (s : State) (j : Fin 16) (w : Word) : (s.setStack j w).draws = s.draws := rfl

@[simp] theorem setMem_v (s : State) (m : Memory) : (s.setMem m).v = s.v := rfl
@[simp] theorem setMem_i (s : State) (m : Memory) : (s.setMem m).i = s.i := rfl
@[simp] theorem setMem_pc (s : State) (m : Memory) : (s.setMem m).pc = s.pc := rfl
@[simp] theorem setMem_sp (s : State) (m : Memory) : (s.setMem m).sp = s.sp := rfl
@[simp] theorem setMem_dt (s : State) (m : Memory) : (s.setMem m).dt = s.dt := rfl
@[simp] theorem setMem_st (s : State) (m : Memory) : (s.setMem m).st = s.st := rfl
@[simp] theorem setMem_stack (s : State) (m : Memory) : (s.setMem m).stack = s.stack := rfl
@[simp] theorem setMem_mem (s : State) (m : Memory) : (s.setMem m).mem = m := rfl
@[simp] theorem setMem_pix (s : State) (m : Memory) : (s.setMem m).pix = s.pix := rfl
@[simp] theorem setMem_key (s : State) (m : Memory) : (s.setMem m).key = s.key := rfl
@[simp] theorem setMem_fault (s : State) (m : Memory) : (s.setMem m).fault = s.fault := rfl
@[simp] theorem setMem_draws (s : State) (m : Memory) : (s.setMem m).draws = s.draws := rfl

@[simp] theorem setPix_v (s : State) (p : Screen) : (s.setPix p).v = s.v := rfl
@[simp] theorem setPix_i (s : State) (p : Screen) : (s.setPix p).i = s.i := rfl
@[simp] theorem setPix_pc (s : State) (p : Screen) : (s.setPix p).pc = s.pc := rfl
@[simp] theorem setPix_sp (s : State) (p : Screen) : (s.setPix p).sp = s.sp := rfl
@[simp] theorem setPix_dt (s : State) (p : Screen) : (s.setPix p).dt = s.dt := rfl
@[simp] theorem setPix_st (s : State) (p : Screen) : (s.setPix p).st = s.st := rfl
@[simp] theorem setPix_stack (s : State) (p : Screen) : (s.setPix p).stack = s.stack := rfl
@[simp] theorem setPix_mem (s : State) (p : Screen) : (s.setPix p).mem = s.mem := rfl
@[simp] theorem setPix_pix (s : State) (p : Screen) : (s.setPix p).pix = p := rfl
@[simp] theorem setPix_key (s : State) (p : Screen) : (s.setPix p).key = s.key := rfl
@[simp] theorem setPix_fault (s : State) (p : Screen) : (s.setPix p).fault = s.fault := rfl
@[simp] theorem setPix_draws (s : State) (p : Screen) : (s.setPix p).draws = s.draws := rfl

@[simp] theorem setKey_v (s : State) (k : Key) (d : Bool) : (s.setKey k d).v = s.v := rfl
@[simp] theorem setKey_i (s : State) (k : Key) (d : Bool) : (s.setKey k d).i = s.i := rfl
@[simp] theorem setKey_pc (s : State) (k : Key) (d : Bool) : (s.setKey k d).pc = s.pc := rfl
@[simp] theorem setKey_sp (s : State) (k : Key) (d : Bool) : (s.setKey k d).sp = s.sp := rfl
@[simp] theorem setKey_dt (s : State) (k : Key) (d : Bool) : (s.setKey k d).dt = s.dt := rfl
@[simp] theorem setKey_st (s : State) (k : Key) (d : Bool) : (s.setKey k d).st = s.st := rfl
@[simp] theorem setKey_stack (s : State) (k : Key) (d : Bool) : (s.setKey k d).stack = s.stack := rfl
@[simp] theorem setKey_mem (s : State) (k : Key) (d : Bool) : (s.setKey k d).mem = s.mem := rfl
@[simp] theorem setKey_pix (s : State) (k : Key) (d : Bool) : (s.setKey k d).pix = s.pix := rfl
@[simp] theorem setKey_key (s : State) (k : Key) (d : Bool) : (s.setKey k d).key = s.key.set k.val d k.isLt := rfl
@[simp] theorem setKey_fault (s : State) (k : Key) (d : Bool) : (s.setKey k d).fault = s.fault := rfl
@[simp] theorem setKey_draws (s : State) (k : Key) (d : Bool) : (s.setKey k d).draws = s.draws := rfl

@[simp] theorem setFault_v (s : State) (f : Option Fault) : (s.setFault f).v = s.v := rfl
@[simp] theorem setFault_i (s : State) (f : Option Fault) : (s.setFault f).i = s.i := rfl
@[simp] theorem setFault_pc (s : State) (f : Option Fault) : (s.setFault f).pc = s.pc := rfl
@[simp] theorem setFault_sp (s : State) (f : Option Fault) : (s.setFault f).sp = s.sp := rfl
@[simp] theorem setFault_dt (s : State) (f : Option Fault) : (s.setFault f).dt = s.dt := rfl
@[simp] theorem setFault_st (s : State) (f : Option Fault) : (s.setFault f).st = s.st := rfl
@[simp] theorem setFault_stack (s : State) (f : Option Fault) : (s.setFault f).stack = s.stack := rfl
@[simp] theorem setFault_mem (s : State) (f : Option Fault) : (s.setFault f).mem = s.mem := rfl
@[simp] theorem setFault_pix (s : State) (f : Option Fault) : (s.setFault f).pix = s.pix := rfl
@[simp] theorem setFault_key (s : State) (f : Option Fault) : (s.setFault f).key = s.key := rfl
@[simp] theorem setFault_fault (s : State) (f : Option Fault) : (s.setFault f).fault = f := rfl
@[simp] theorem setFault_draws (s : State) (f : Option Fault) : (s.setFault f).draws = s.draws := rfl

@[simp] theorem setDraws_v (s : State) (n : Nat) : (s.setDraws n).v = s.v := rfl
@[simp] theorem setDraws_i (s : State) (n : Nat) : (s.setDraws n).i = s.i := rfl
@[simp] theorem setDraws_pc (s : State) (n : Nat) : (s.setDraws n).pc = s.pc := rfl
@[simp] theorem setDraws_sp (s : State) (n : Nat) : (s.setDraws n).sp = s.sp := rfl
@[simp] theorem setDraws_dt (s : State) (n : Nat) : (s.setDraws n).dt = s.dt := rfl
@[simp] theorem setDraws_st (s : State) (n : Nat) : (s.setDraws n).st = s.st := rfl
@[simp] theorem setDraws_stack (s : State) (n : Nat) : (s.setDraws n).stack = s.stack := rfl
@[simp] theorem setDraws_mem (s : State) (n : Nat) : (s.setDraws n).mem = s.mem := rfl
@[simp] theorem setDraws_pix (s : State) (n : Nat) : (s.setDraws n).pix = s.pix := rfl
@[simp] theorem setDraws_key (s : State) (n : Nat) : (s.setDraws n).key = s.key := rfl
@[simp] theorem setDraws_fault (s : State) (n : Nat) : (s.setDraws n).fault = s.fault := rfl
@[simp] theorem setDraws_draws (s : State) (n : Nat) : (s.setDraws n).draws = n := rfl

/-! Registers, keys and slots read after a setter. -/

@[simp] theorem setV_keyDown (s : State) (r : Reg) (b : Byte) (q : Key) : (s.setV r b).keyDown q = s.keyDown q := rfl
@[simp] theorem setI_getV (s : State) (w : Word) (q : Reg) : (s.setI w).getV q = s.getV q := rfl
@[simp] theorem setI_keyDown (s : State) (w : Word) (q : Key) : (s.setI w).keyDown q = s.keyDown q := rfl
@[simp] theorem setPc_getV (s : State) (w : Word) (q : Reg) : (s.setPc w).getV q = s.getV q := rfl
@[simp] theorem setPc_keyDown (s : State) (w : Word) (q : Key) : (s.setPc w).keyDown q = s.keyDown q := rfl
@[simp] theorem setSp_getV (s : State) (b : Byte) (q : Reg) : (s.setSp b).getV q = s.getV q := rfl
@[simp] theorem setSp_keyDown (s : State) (b : Byte) (q : Key) : (s.setSp b).keyDown q = s.keyDown q := rfl
@[simp] theorem setDt_getV (s : State) (b : Byte) (q : Reg) : (s.setDt b).getV q = s.getV q := rfl
@[simp] theorem setDt_keyDown (s : State) (b : Byte) (q : Key) : (s.setDt b).keyDown q = s.keyDown q := rfl
@[simp] theorem setSt_getV (s : State) (b : Byte) (q : Reg) : (s.setSt b).getV q = s.getV q := rfl
@[simp] theorem setSt_keyDown (s : State) (b : Byte) (q : Key) : (s.setSt b).keyDown q = s.keyDown q := rfl
@[simp] theorem setStack_getV (s : State) (j : Fin 16) (w : Word) (q : Reg) : (s.setStack j w).getV q = s.getV q := rfl
@[simp] theorem setStack_keyDown (s : State) (j : Fin 16) (w : Word) (q : Key) : (s.setStack j w).keyDown q = s.keyDown q := rfl
@[simp] theorem setMem_getV (s : State) (m : Memory) (q : Reg) : (s.setMem m).getV q = s.getV q := rfl
@[simp] theorem setMem_keyDown (s : State) (m : Memory) (q : Key) : (s.setMem m).keyDown q = s.keyDown q := rfl
@[simp] theorem setPix_getV (s : State) (p : Screen) (q : Reg) : (s.setPix p).getV q = s.getV q := rfl
@[simp] theorem setPix_keyDown (s : State) (p : Screen) (q : Key) : (s.setPix p).keyDown q = s.keyDown q := rfl
@[simp] theorem setKey_getV (s : State) (k : Key) (d : Bool) (q : Reg) : (s.setKey k d).getV q = s.getV q := rfl
@[simp] theorem setFault_getV (s : State) (f : Option Fault) (q : Reg) : (s.setFault f).getV q = s.getV q := rfl
@[simp] theorem setFault_keyDown (s : State) (f : Option Fault) (q : Key) : (s.setFault f).keyDown q = s.keyDown q := rfl
@[simp] theorem setDraws_getV (s : State) (n : Nat) (q : Reg) : (s.setDraws n).getV q = s.getV q := rfl
@[simp] theorem setDraws_keyDown (s : State) (n : Nat) (q : Key) : (s.setDraws n).keyDown q = s.keyDown q := rfl

theorem setV_getV (s : State) (r q : Reg) (b : Byte) : (s.setV r b).getV q = if q = r then b else s.getV q := by
  simp only [State.getV, setV_v, Vector.getElem_set, Fin.ext_iff, eq_comm]

@[simp] theorem setV_getV_same (s : State) (r : Reg) (b : Byte) : (s.setV r b).getV r = b := by
  simp [setV_getV]

theorem setV_getV_other (s : State) {r q : Reg} (b : Byte) (h : q ≠ r) : (s.setV r b).getV q = s.getV q := by
  simp [setV_getV, h]

theorem setKey_keyDown (s : State) (k q : Key) (d : Bool) :
    (s.setKey k d).keyDown q = if q = k then d else s.keyDown q := by
  simp only [State.keyDown, setKey_key, Vector.getElem_set, Fin.ext_iff, eq_comm]

theorem setStack_slot (s : State) (j q : Fin 16) (w : Word) :
    (s.setStack j w).stack[q.val] = if q = j then w else s.stack[q.val] := by
  simp only [setStack_stack, Vector.getElem_set, Fin.ext_iff, eq_comm]

/-! Two updates of one register. -/

@[simp] theorem setPc_setPc (s : State) (w w' : Word) : (s.setPc w).setPc w' = s.setPc w' := rfl

@[simp] theorem setPc_self (s : State) : s.setPc s.pc = s := rfl

theorem setPc_eq (s : State) {w : Word} (h : w = s.pc) : s.setPc w = s := by subst h; rfl

/-! Frames: `ChangesOnly` composes, and each setter has its own. -/

theorem ChangesOnly.refl (W : Piece → Prop) (s : State) : ChangesOnly W s s := by
  intro p _
  cases p <;> rfl

theorem Agree.trans {s t u : State} {p : Piece} (h : Agree s t p) (k : Agree t u p) : Agree s u p := by
  cases p <;> exact Eq.trans k h

theorem ChangesOnly.trans {W : Piece → Prop} {s t u : State} (h : ChangesOnly W s t) (k : ChangesOnly W t u) :
    ChangesOnly W s u := fun p hp => (h p hp).trans (k p hp)

theorem ChangesOnly.mono {W W' : Piece → Prop} {s t : State} (h : ChangesOnly W s t) (hW : ∀ p, W p → W' p) :
    ChangesOnly W' s t := fun p hp => h p fun q => hp (hW p q)

theorem changesOnly_setV (s : State) (r : Reg) (b : Byte) : ChangesOnly (· = .v r) s (s.setV r b) := by
  intro p hp
  cases p with
  | v q => exact setV_getV_other s b (by rintro rfl; exact hp rfl)
  | _ => rfl

theorem changesOnly_setKey (s : State) (k : Key) (d : Bool) : ChangesOnly (· = .key k) s (s.setKey k d) := by
  intro p hp
  cases p with
  | key q => simp [Agree, setKey_keyDown, show q ≠ k by rintro rfl; exact hp rfl]
  | _ => rfl

theorem changesOnly_setStack (s : State) (j : Fin 16) (w : Word) : ChangesOnly (· = .stack j) s (s.setStack j w) := by
  intro p hp
  cases p with
  | stack q => rw [Agree, setStack_slot, if_neg (by rintro rfl; exact hp rfl)]
  | _ => rfl

theorem changesOnly_setI (s : State) (w : Word) : ChangesOnly (· = .i) s (s.setI w) := by
  intro p hp
  cases p <;> first | rfl | exact absurd rfl hp

theorem changesOnly_setPc (s : State) (w : Word) : ChangesOnly (· = .pc) s (s.setPc w) := by
  intro p hp
  cases p <;> first | rfl | exact absurd rfl hp

theorem changesOnly_setSp (s : State) (b : Byte) : ChangesOnly (· = .sp) s (s.setSp b) := by
  intro p hp
  cases p <;> first | rfl | exact absurd rfl hp

theorem changesOnly_setDt (s : State) (b : Byte) : ChangesOnly (· = .dt) s (s.setDt b) := by
  intro p hp
  cases p <;> first | rfl | exact absurd rfl hp

theorem changesOnly_setSt (s : State) (b : Byte) : ChangesOnly (· = .st) s (s.setSt b) := by
  intro p hp
  cases p <;> first | rfl | exact absurd rfl hp

theorem changesOnly_setFault (s : State) (f : Option Fault) : ChangesOnly (· = .fault) s (s.setFault f) := by
  intro p hp
  cases p <;> first | rfl | exact absurd rfl hp

theorem changesOnly_setDraws (s : State) (n : Nat) : ChangesOnly (· = .draws) s (s.setDraws n) := by
  intro p hp
  cases p <;> first | rfl | exact absurd rfl hp

theorem changesOnly_setPix (s : State) (p : Screen) : ChangesOnly (fun q => ∃ r c, q = .pix r c) s (s.setPix p) := by
  intro q hq
  cases q with
  | pix r c => exact absurd ⟨r, c, rfl⟩ hq
  | _ => rfl

theorem changesOnly_setMem (s : State) (m : Memory) (W : Piece → Prop)
    (h : ∀ a, ¬ W (.mem a) → Memory.peek m a = Memory.peek s.mem a) : ChangesOnly W s (s.setMem m) := by
  intro q hq
  cases q with
  | mem a => exact h a hq
  | _ => rfl

end Sys2Proof.Machine
end

