-- ==== Sys2Proof/Laws/Keys.lean ====
section
/-! SUPPORT. Fx0A's scan: it finds a key exactly when one is down, and then the highest (spec/45_keys_and_timers.md
R195). -/

namespace Sys2Proof.Machine

theorem scanFrom_none {s : State} {ks : List Key} {found : Option Key} :
    scanFrom s ks found = none ↔ found = none ∧ ∀ k ∈ ks, s.keyDown k = false := by
  induction ks generalizing found with
  | nil => simp [scanFrom]
  | cons k ks ih =>
    rw [scanFrom, ih]
    cases h : s.keyDown k <;> simp [h]

/-- Scanning keys in index order keeps the last one down, and what was found before only if none is. -/
theorem scanFrom_some {s : State} {ks : List Key} {found : Option Key} {k : Key} (hs : ks.Pairwise (· < ·))
    (h : scanFrom s ks found = some k) :
    (found = some k ∧ ∀ j ∈ ks, s.keyDown j = false) ∨
      (k ∈ ks ∧ s.keyDown k = true ∧ ∀ j ∈ ks, k < j → s.keyDown j = false) := by
  induction ks generalizing found with
  | nil => exact .inl ⟨h, by simp⟩
  | cons a ks ih =>
    obtain ⟨ha, hs⟩ := List.pairwise_cons.1 hs
    rcases ih hs h with ⟨h1, h2⟩ | ⟨h1, h2, h3⟩
    · cases hd : s.keyDown a with
      | false => exact .inl ⟨by simpa [hd] using h1, by simpa [hd] using h2⟩
      | true =>
        have hk : a = k := by simpa [hd] using h1
        subst hk
        refine .inr ⟨List.mem_cons_self .., hd, fun j hj hlt => ?_⟩
        rcases List.mem_cons.1 hj with rfl | hj
        · exact absurd hlt (lt_irrefl _)
        · exact h2 j hj
    · refine .inr ⟨List.mem_cons_of_mem _ h1, h2, fun j hj hlt => ?_⟩
      rcases List.mem_cons.1 hj with rfl | hj
      · exact absurd (ha k h1) (not_lt_of_gt hlt)
      · exact h3 j hj hlt

theorem mem_allKeys (k : Key) : k ∈ allKeys := by revert k; decide

theorem scanKeys_none_iff {s : State} : scanKeys s = none ↔ ∀ k, s.keyDown k = false := by
  simp [scanKeys, scanFrom_none, mem_allKeys]

/-- The key found is down and no higher one is. -/
theorem scanKeys_some {s : State} {k : Key} (h : scanKeys s = some k) :
    s.keyDown k = true ∧ ∀ j, k < j → s.keyDown j = false := by
  rcases scanFrom_some (by decide) h with ⟨h1, -⟩ | ⟨-, h1, h2⟩
  · cases h1
  · exact ⟨h1, fun j hj => h2 j (mem_allKeys j) hj⟩

end Sys2Proof.Machine
end

