-- ==== Sys2Proof/Laws/Memory.lean ====
section
/-! SUPPORT. The laws of memory: read after write, canonical form, and that equal reads mean equal memories. -/

namespace Sys2Proof.Machine

theorem peek_erase (m : Memory) (a b : Nat) :
    Memory.peek (Memory.erase m a) b = if b = a then Config.resetByte b else Memory.peek m b := by
  induction m with
  | nil => simp [Memory.erase, Memory.peek]
  | cons c m ih =>
    obtain ⟨k, w⟩ := c
    by_cases hk : k = a
    · subst hk
      by_cases hb : b = k <;> simp_all [Memory.erase, Memory.peek]
    · simp only [Memory.erase, List.filter_cons, bne_iff_ne, ne_eq, hk, not_false_eq_true, if_true, Memory.peek]
      simp only [Memory.erase] at ih
      by_cases hb : b = k
      · subst hb; simp [hk]
      · simp [hb, ih]

theorem peek_insert (m : Memory) (a b : Nat) (v : Byte) (h : Memory.erase m a = m) :
    Memory.peek (Memory.insert m a v) b = if b = a then v else Memory.peek m b := by
  induction m with
  | nil => simp [Memory.insert, Memory.peek]
  | cons c m ih =>
    obtain ⟨k, w⟩ := c
    have hm : k ≠ a ∧ Memory.erase m a = m := by
      simpa [Memory.erase, List.filter_eq_self] using h
    unfold Memory.insert
    split
    · simp [Memory.peek]
    · simp only [Memory.peek, ih hm.2]
      by_cases hb : b = k
      · subst hb; simp [hm.1]
      · simp [hb]

theorem erase_erase (m : Memory) (a : Nat) : Memory.erase (Memory.erase m a) a = Memory.erase m a := by
  simp [Memory.erase]

/-- A read after a write (R52, R53): the written byte at its address, every other byte as before. -/
theorem peek_poke (m : Memory) (a b : Nat) (v : Byte) :
    Memory.peek (Memory.poke m a v) b = if b = a then v else Memory.peek m b := by
  unfold Memory.poke
  split
  · rw [peek_erase]
    split <;> simp_all
  · rw [peek_insert _ _ _ _ (erase_erase m a), peek_erase]
    split <;> rfl

@[simp] theorem peek_poke_same (m : Memory) (a : Nat) (v : Byte) : Memory.peek (Memory.poke m a v) a = v := by
  simp [peek_poke]

theorem peek_poke_other (m : Memory) {a b : Nat} (v : Byte) (h : b ≠ a) :
    Memory.peek (Memory.poke m a v) b = Memory.peek m b := by
  simp [peek_poke, h]

/-! The canonical form. -/

theorem wfFrom_cons {lo : Nat} {c : Host.Cell} {m : Memory} :
    Memory.wfFrom lo (c :: m) = true ↔
      lo ≤ c.1 ∧ c.1 < 4096 ∧ c.2 ≠ Config.resetByte c.1 ∧ Memory.wfFrom (c.1 + 1) m = true := by
  obtain ⟨a, v⟩ := c
  simp [Memory.wfFrom, and_assoc]

theorem wfFrom_le {m : Memory} {lo lo' : Nat} (h : Memory.wfFrom lo m = true) (hl : lo' ≤ lo) :
    Memory.wfFrom lo' m = true := by
  cases m with
  | nil => rfl
  | cons c m =>
    rw [wfFrom_cons] at h ⊢
    exact ⟨hl.trans h.1, h.2⟩

theorem wfFrom_erase {m : Memory} {lo : Nat} (a : Nat) (h : Memory.wfFrom lo m = true) :
    Memory.wfFrom lo (Memory.erase m a) = true := by
  induction m generalizing lo with
  | nil => rfl
  | cons c m ih =>
    rw [wfFrom_cons] at h
    by_cases hc : c.1 = a
    · simpa [Memory.erase, hc] using wfFrom_le (ih h.2.2.2) (by omega : lo ≤ c.1 + 1)
    · simp only [Memory.erase, List.filter_cons, bne_iff_ne, ne_eq, hc, not_false_eq_true, if_true]
      exact wfFrom_cons.2 ⟨h.1, h.2.1, h.2.2.1, ih h.2.2.2⟩

theorem wfFrom_insert {m : Memory} {lo a : Nat} {v : Byte} (h : Memory.wfFrom lo m = true)
    (hm : Memory.erase m a = m) (hl : lo ≤ a) (ha : a < 4096) (hv : v ≠ Config.resetByte a) :
    Memory.wfFrom lo (Memory.insert m a v) = true := by
  induction m generalizing lo with
  | nil => exact wfFrom_cons.2 ⟨hl, ha, hv, rfl⟩
  | cons c m ih =>
    obtain ⟨k, w⟩ := c
    have hk : k ≠ a ∧ Memory.erase m a = m := by
      simpa [Memory.erase, List.filter_eq_self] using hm
    have hc := wfFrom_cons.1 h
    unfold Memory.insert
    split
    · exact wfFrom_cons.2 ⟨hl, ha, hv, wfFrom_cons.2 ⟨by simp only; omega, hc.2⟩⟩
    · exact wfFrom_cons.2 ⟨hc.1, hc.2.1, hc.2.2.1, ih hc.2.2.2 hk.2 (by have := hk.1; simp only; omega)⟩

/-- A write inside memory keeps the canonical form. -/
theorem wf_poke {m : Memory} {a : Nat} (v : Byte) (h : Memory.wf m = true) (ha : a < 4096) :
    Memory.wf (Memory.poke m a v) = true := by
  unfold Memory.poke
  split
  · exact wfFrom_erase a h
  · rename_i hv
    exact wfFrom_insert (wfFrom_erase a h) (erase_erase m a) (Nat.zero_le _) ha hv

theorem peek_of_lt {m : Memory} {lo b : Nat} (h : Memory.wfFrom lo m = true) (hb : b < lo) :
    Memory.peek m b = Config.resetByte b := by
  induction m generalizing lo with
  | nil => rfl
  | cons c m ih =>
    have hc := wfFrom_cons.1 h
    obtain ⟨k, w⟩ := c
    simp only at hc
    simp only [Memory.peek, if_neg (show b ≠ k by omega)]
    exact ih hc.2.2.2 (by omega)

/-- Two memories in canonical form that read the same at every address are the same data. -/
theorem wf_ext {m m' : Memory} {lo : Nat} (h : Memory.wfFrom lo m = true) (h' : Memory.wfFrom lo m' = true)
    (hp : ∀ a, Memory.peek m a = Memory.peek m' a) : m = m' := by
  induction m generalizing lo m' with
  | nil =>
    cases m' with
    | nil => rfl
    | cons c m' =>
      have hc := wfFrom_cons.1 h'
      obtain ⟨k, w⟩ := c
      have := hp k
      simp [Memory.peek] at this
      exact absurd this.symm hc.2.2.1
  | cons c m ih =>
    have hc := wfFrom_cons.1 h
    obtain ⟨k, w⟩ := c
    cases m' with
    | nil =>
      have := hp k
      simp [Memory.peek] at this
      exact absurd this hc.2.2.1
    | cons c' m' =>
      have hc' := wfFrom_cons.1 h'
      obtain ⟨k', w'⟩ := c'
      simp only at hc hc'
      have hk : k = k' := by
        rcases Nat.lt_trichotomy k k' with hlt | heq | hlt
        · have := hp k
          rw [peek_of_lt (wfFrom_cons.2 ⟨Nat.le_refl _, hc'.2⟩ : Memory.wfFrom k' ((k', w') :: m') = true) hlt] at this
          simp [Memory.peek] at this
          exact absurd this hc.2.2.1
        · exact heq
        · have := hp k'
          rw [peek_of_lt (wfFrom_cons.2 ⟨Nat.le_refl _, hc.2⟩ : Memory.wfFrom k ((k, w) :: m) = true) hlt] at this
          simp [Memory.peek] at this
          exact absurd this.symm hc'.2.2.1
      subst hk
      have hw : w = w' := by simpa [Memory.peek] using hp k
      subst hw
      have htail : m = m' := by
        refine ih hc.2.2.2 hc'.2.2.2 fun a => ?_
        by_cases ha : a = k
        · subst ha
          rw [peek_of_lt hc.2.2.2 (Nat.lt_succ_self _), peek_of_lt hc'.2.2.2 (Nat.lt_succ_self _)]
        · simpa [Memory.peek, ha] using hp a
      rw [htail]

/-! A memory given by its contents (R240, R242). -/

theorem wfFrom_cells (f : Nat → Byte) (n : Nat) {a : Nat} (h : a + n ≤ 4096) :
    Memory.wfFrom a ((List.range' a n).filterMap fun b => if f b = Config.resetByte b then none else some (b, f b))
      = true := by
  induction n generalizing a with
  | zero => rfl
  | succ n ih =>
    have hrest := ih (a := a + 1) (by omega)
    by_cases hf : f a = Config.resetByte a
    · simpa [List.range'_succ, hf] using wfFrom_le hrest (Nat.le_succ a)
    · simp only [List.range'_succ, List.filterMap_cons, if_neg hf]
      exact wfFrom_cons.2 ⟨Nat.le_refl _, by simp only; omega, hf, hrest⟩

theorem peek_cells (f : Nat → Byte) (a n b : Nat) :
    Memory.peek ((List.range' a n).filterMap fun c => if f c = Config.resetByte c then none else some (c, f c)) b
      = if a ≤ b ∧ b < a + n then f b else Config.resetByte b := by
  induction n generalizing a with
  | zero => rw [if_neg (by omega)]; rfl
  | succ n ih =>
    have hrest := ih (a + 1)
    by_cases hf : f a = Config.resetByte a
    · simp only [List.range'_succ, List.filterMap_cons, if_pos hf, hrest]
      by_cases hb : b = a
      · subst hb; rw [if_neg (by omega), if_pos (by omega), hf]
      · exact if_congr (by omega) rfl rfl
    · simp only [List.range'_succ, List.filterMap_cons, if_neg hf, Memory.peek, hrest]
      by_cases hb : b = a
      · subst hb; rw [if_pos rfl, if_pos (by omega)]
      · rw [if_neg hb]; exact if_congr (by omega) rfl rfl

/-- A memory given by its contents is in canonical form. -/
@[simp] theorem wf_ofContents (f : Nat → Byte) : Memory.wf (Memory.ofContents f) = true := by
  rw [Memory.wf, Memory.ofContents, List.range_eq_range']
  exact wfFrom_cells f _ (by decide)

/-- It reads as them below 4096. -/
theorem peek_ofContents (f : Nat → Byte) {a : Nat} (h : a < 4096) : Memory.peek (Memory.ofContents f) a = f a := by
  rw [Memory.ofContents, List.range_eq_range', peek_cells, if_pos ⟨Nat.zero_le _, by simpa using h⟩]

/-- The memory whose contents are the default reset contents lists nothing. -/
theorem ofContents_resetByte : Memory.ofContents Config.resetByte = [] := by
  simp [Memory.ofContents]

/-! What Reset loads, area by area. -/

theorem resetContents_font (par : Config.Params) (program : List Byte) {a : Nat} (h : a < 80) :
    resetContents par program a = par.font[a] :=
  dif_pos h

theorem resetContents_program (par : Config.Params) (program : List Byte) {j : Nat} (h : j < program.length) :
    resetContents par program (0x200 + j) = program[j] := by
  have h1 : ¬ 0x200 + j < Config.fontSize := by simp only [Config.fontSize]; omega
  have h2 : Config.progBase ≤ 0x200 + j ∧ 0x200 + j < Config.progBase + program.length := by
    simp only [Config.progBase]; omega
  rw [resetContents, dif_neg h1, if_pos h2]
  simp [Config.progBase, h]

theorem resetContents_rest (par : Config.Params) (program : List Byte) {a : Nat} (h : 80 ≤ a)
    (hp : a < 0x200 ∨ 0x200 + program.length ≤ a) : resetContents par program a = par.reset0.mem a := by
  have h1 : ¬ a < Config.fontSize := by simp only [Config.fontSize]; omega
  have h2 : ¬ (Config.progBase ≤ a ∧ a < Config.progBase + program.length) := by
    simp only [Config.progBase]; omega
  rw [resetContents, dif_neg h1, if_neg h2]

end Sys2Proof.Machine
end

