-- ==== Sys2Proof/Laws/Ops.lean ====
section
/-! SUPPORT. What each shared operation can do, said once: when it answers a next state and which, when it stops and
how, and what it leaves unchanged. -/

namespace Sys2Proof.Machine

/-! Sequencing and faults. -/

@[simp] theorem andThen_of_next {α β : Type} (a : α) (f : α → Result β) : andThen (.next a) f = f a := rfl
@[simp] theorem andThen_of_fault {α β : Type} (r : Fault) (f : α → Result β) : andThen (.fault r) f = .fault r := rfl
@[simp] theorem andThen_of_refused {α β : Type} (r : Refusal) (f : α → Result β) :
    andThen (.refused r) f = .refused r := rfl

theorem andThen_next_iff {α β : Type} {x : Result α} {f : α → Result β} {b : β} :
    andThen x f = .next b ↔ ∃ a, x = .next a ∧ f a = .next b := by
  cases x <;> simp

theorem andThen_fault_iff {α β : Type} {x : Result α} {f : α → Result β} {r : Fault} :
    andThen x f = .fault r ↔ x = .fault r ∨ ∃ a, x = .next a ∧ f a = .fault r := by
  cases x <;> simp

theorem andThen_assoc {α β γ : Type} (x : Result α) (f : α → Result β) (g : β → Result γ) :
    andThen (andThen x f) g = andThen x fun a => andThen (f a) g := by
  cases x <;> rfl

@[simp] theorem raise_ne_next {α : Type} (f : Fault) (a : α) : (raise f : Result α) ≠ .next a := by
  cases f <;> simp [raise]

@[simp] theorem raise_outOfBounds {α : Type} (a : Nat) :
    (raise (.outOfBoundsMemoryAccess a) : Result α) = .fault (.outOfBoundsMemoryAccess a) := rfl
@[simp] theorem raise_stackOverflow {α : Type} : (raise .stackOverflow : Result α) = .fault .stackOverflow := rfl
@[simp] theorem raise_stackUnderflow {α : Type} : (raise .stackUnderflow : Result α) = .fault .stackUnderflow := rfl
@[simp] theorem raise_illegalInstruction {α : Type} (op : Word) :
    (raise (.illegalInstruction op) : Result α) = .refused (.illegalInstruction op) := rfl
@[simp] theorem raise_programTooLarge {α : Type} (n : Nat) :
    (raise (.programTooLarge n) : Result α) = .fault (.programTooLarge n) := rfl

/-- Whatever the filing, raising a fault raises that fault (R211). -/
@[simp] theorem raised_raise {α : Type} (f : Fault) : raised (raise f : Result α) = some f := by
  cases f <;> rfl

@[simp] theorem latch_fault (f : Fault) (s : State) : (latch f s).fault = some f := rfl
@[simp] theorem latch_draws (f : Fault) (s : State) : (latch f s).draws = s.draws := rfl

theorem requireRunning_none {α : Type} {s : State} (x : Result α) (h : s.fault = none) : requireRunning s x = x := by
  simp [requireRunning, h]

theorem requireRunning_some {α : Type} {s : State} {f : Fault} (x : Result α) (h : s.fault = some f) :
    requireRunning s x = .refused (.runIsOver f) := by
  simp [requireRunning, h]

theorem requireRunning_next_iff {α : Type} {s : State} {x : Result α} {a : α} :
    requireRunning s x = .next a ↔ s.fault = none ∧ x = .next a := by
  cases h : s.fault <;> simp [requireRunning, h]

/-! Memory accesses. -/

theorem memRead_of_lt {a : Nat} (s : State) (h : a < 4096) : memRead a s = .next (Memory.peek s.mem a) :=
  if_neg (Nat.not_le.2 h)

theorem memRead_of_ge {a : Nat} (s : State) (h : 4096 ≤ a) : memRead a s = .fault (.outOfBoundsMemoryAccess a) :=
  if_pos h

theorem memRead_next_iff {a : Nat} {s : State} {b : Byte} :
    memRead a s = .next b ↔ a < 4096 ∧ Memory.peek s.mem a = b := by
  by_cases h : a < 4096
  · simp [memRead_of_lt s h, h]
  · simp [memRead_of_ge s (Nat.not_lt.1 h), h]

theorem memWrite_of_lt {a : Nat} (v : Byte) (s : State) (h : a < 4096) :
    memWrite a v s = .next (s.setMem (Memory.poke s.mem a v)) :=
  if_neg (Nat.not_le.2 h)

theorem memWrite_of_ge {a : Nat} (v : Byte) (s : State) (h : 4096 ≤ a) :
    memWrite a v s = .fault (.outOfBoundsMemoryAccess a) :=
  if_pos h

theorem memWrite_next_iff {a : Nat} {v : Byte} {s t : State} :
    memWrite a v s = .next t ↔ a < 4096 ∧ s.setMem (Memory.poke s.mem a v) = t := by
  by_cases h : a < 4096
  · simp [memWrite_of_lt v s h, h]
  · simp [memWrite_of_ge v s (Nat.not_lt.1 h), h]

theorem changesOnly_poke (s : State) (a : Nat) (v : Byte) :
    ChangesOnly (· = .mem a) s (s.setMem (Memory.poke s.mem a v)) :=
  changesOnly_setMem s _ _ fun _ hb => peek_poke_other _ v fun h => hb (by rw [h])

theorem memReadRange_of_le {start len : Nat} (s : State) (h : start + len ≤ 4096) :
    memReadRange start len s = .next ((List.range' start len).map (Memory.peek s.mem)) :=
  if_neg (Nat.not_lt.2 h)

theorem memReadRange_of_gt {start len : Nat} (s : State) (h : 4096 < start + len) :
    memReadRange start len s = .fault (.outOfBoundsMemoryAccess (start + len - 1)) :=
  if_pos h

/-! Register accessors by number (R21). -/

theorem readReg_of_lt {k : Nat} (s : State) (h : k < 16) : readReg s k = .next (s.getV ⟨k, h⟩) := dif_pos h

theorem writeReg_of_lt {k : Nat} (b : Byte) (s : State) (h : k < 16) : writeReg k b s = .next (s.setV ⟨k, h⟩ b) :=
  dif_pos h

theorem setFlagThen_getV (s : State) (f : Bool) (x q : Reg) (b : Byte) :
    (setFlagThen s f x b).getV q = if q = x then b else if q = vF then flagByte f else s.getV q := by
  simp only [setFlagThen, setV_getV]

theorem changesOnly_setFlagThen (s : State) (f : Bool) (x : Reg) (b : Byte) :
    ChangesOnly (fun p => p = .v x ∨ p = .v 15) s (setFlagThen s f x b) :=
  ((changesOnly_setV s vF (flagByte f)).mono fun _ h => .inr h).trans
    ((changesOnly_setV _ x b).mono fun _ h => .inl h)

theorem changesOnly_skipIf (c : Bool) (s : State) : ChangesOnly (· = .pc) s (skipIf c s) := by
  cases c
  · exact .refl _ s
  · exact changesOnly_setPc s _

/-! Block stores and loads. Each recursion is described once: when it completes, with what, and what it keeps. -/

/-- A block store answers only memory, and keeps its canonical form. -/
theorem storeBytes_next {a : Nat} {bs : List Byte} {s t : State} (h : storeBytes a bs s = .next t) :
    ∃ m, t = s.setMem m ∧ (Memory.wf s.mem = true → Memory.wf m = true) := by
  induction bs generalizing a s with
  | nil =>
    have hs : s = t := by simpa [storeBytes] using h
    exact ⟨s.mem, hs.symm, id⟩
  | cons b bs ih =>
    obtain ⟨s', h1, h2⟩ := andThen_next_iff.1 h
    obtain ⟨ha, rfl⟩ := memWrite_next_iff.1 h1
    obtain ⟨m, rfl, hm⟩ := ih h2
    exact ⟨m, rfl, fun hw => hm (wf_poke b hw ha)⟩

theorem storeBytes_completes {a : Nat} {bs : List Byte} {s : State} (h : a + bs.length ≤ 4096) :
    ∃ t, storeBytes a bs s = .next t ∧ (∀ k (hk : k < bs.length), Memory.peek t.mem (a + k) = bs[k])
      ∧ ChangesOnly (fun p => ∃ k, k < bs.length ∧ p = .mem (a + k)) s t := by
  induction bs generalizing a s with
  | nil => exact ⟨s, rfl, by simp, .refl _ s⟩
  | cons b bs ih =>
    simp only [List.length_cons] at h
    obtain ⟨t, h1, h2, h3⟩ := ih (a := a + 1) (s := s.setMem (Memory.poke s.mem a b)) (by omega)
    refine ⟨t, ?_, ?_, ?_⟩
    · rw [storeBytes, memWrite_of_lt b s (by omega)]; exact h1
    · intro k hk
      cases k with
      | zero =>
        have : Memory.peek t.mem a = Memory.peek (Memory.poke s.mem a b) a :=
          h3 (.mem a) (by rintro ⟨k, _, hk⟩; simp only [Piece.mem.injEq] at hk; omega)
        simpa using this
      | succ k => rw [show a + (k + 1) = a + 1 + k by omega]; exact h2 k (by simpa using hk)
    · refine ((changesOnly_poke s a b).mono ?_).trans (h3.mono ?_)
      · rintro p rfl; exact ⟨0, by simp, rfl⟩
      · rintro p ⟨k, hk, rfl⟩
        exact ⟨k + 1, by simpa using hk, by rw [show a + 1 + k = a + (k + 1) by omega]⟩

theorem storeBytes_stops {a : Nat} {bs : List Byte} {s : State} (hb : bs ≠ []) (h : 4096 < a + bs.length) :
    storeBytes a bs s = .fault (.outOfBoundsMemoryAccess (max a 4096)) := by
  induction bs generalizing a s with
  | nil => exact absurd rfl hb
  | cons b bs ih =>
    simp only [List.length_cons] at h
    by_cases ha : a < 4096
    · have hne : bs ≠ [] := by rintro rfl; simp at h; omega
      rw [storeBytes, memWrite_of_lt b s ha, andThen_of_next, ih hne (by omega)]
      rw [show max (a + 1) 4096 = max a 4096 by omega]
    · rw [storeBytes, memWrite_of_ge b s (by omega), andThen_of_fault, Nat.max_eq_left (by omega)]

theorem storeRegs_next {k count : Nat} {s t : State} (h : storeRegs k count s = .next t) :
    ∃ m, t = s.setMem m ∧ (Memory.wf s.mem = true → Memory.wf m = true) := by
  induction count generalizing k s with
  | zero =>
    have hs : s = t := by simpa [storeRegs] using h
    exact ⟨s.mem, hs.symm, id⟩
  | succ count ih =>
    obtain ⟨b, -, h1⟩ := andThen_next_iff.1 h
    obtain ⟨s', h2, h3⟩ := andThen_next_iff.1 h1
    obtain ⟨ha, rfl⟩ := memWrite_next_iff.1 h2
    obtain ⟨m, rfl, hm⟩ := ih h3
    exact ⟨m, rfl, fun hw => hm (wf_poke b hw ha)⟩

theorem storeRegs_completes {k count : Nat} {s : State} (hk : k + count ≤ 16) (h : s.i.toNat + k + count ≤ 4096) :
    ∃ t, storeRegs k count s = .next t
      ∧ (∀ j : Reg, k ≤ j.val → j.val < k + count → Memory.peek t.mem (s.i.toNat + j.val) = s.getV j)
      ∧ ChangesOnly (fun p => ∃ j, k ≤ j ∧ j < k + count ∧ p = .mem (s.i.toNat + j)) s t := by
  induction count generalizing k s with
  | zero => exact ⟨s, rfl, fun j h1 h2 => by omega, .refl _ s⟩
  | succ count ih =>
    have hk16 : k < 16 := by omega
    let s' := s.setMem (Memory.poke s.mem (s.i.toNat + k) (s.getV ⟨k, hk16⟩))
    obtain ⟨t, h1, h2, h3⟩ := ih (k := k + 1) (s := s') (by omega) (by simp only [s', setMem_i]; omega)
    refine ⟨t, ?_, ?_, ?_⟩
    · rw [storeRegs, readReg_of_lt s hk16, andThen_of_next, blockAddress, memWrite_of_lt _ s (by omega)]
      exact h1
    · intro j hj1 hj2
      by_cases hj : j.val = k
      · have := h3 (.mem (s.i.toNat + k)) (by
          rintro ⟨j, h4, -, h5⟩
          simp only [Piece.mem.injEq, s', setMem_i] at h5
          omega)
        simp only [Agree, s', setMem_mem, peek_poke_same] at this
        rw [hj, this]
        congr 1
        exact Fin.ext hj.symm
      · exact h2 j (by omega) (by omega)
    · refine ((changesOnly_poke s _ _).mono ?_).trans (h3.mono ?_)
      · rintro p rfl; exact ⟨k, Nat.le_refl _, by omega, rfl⟩
      · rintro p ⟨j, h4, h5, rfl⟩; exact ⟨j, by omega, by omega, rfl⟩

theorem storeRegs_stops {k count : Nat} {s : State} (hc : 0 < count) (hk : k + count ≤ 16)
    (h : 4096 < s.i.toNat + k + count) :
    storeRegs k count s = .fault (.outOfBoundsMemoryAccess (max (s.i.toNat + k) 4096)) := by
  induction count generalizing k s with
  | zero => omega
  | succ count ih =>
    rw [storeRegs, readReg_of_lt s (by omega), andThen_of_next, blockAddress]
    by_cases ha : s.i.toNat + k < 4096
    · rw [memWrite_of_lt _ s ha, andThen_of_next, ih (by omega) (by omega) (by simp only [setMem_i]; omega), setMem_i]
      rw [show max (s.i.toNat + (k + 1)) 4096 = max (s.i.toNat + k) 4096 by omega]
    · rw [memWrite_of_ge _ s (by omega), andThen_of_fault, Nat.max_eq_left (by omega)]

theorem loadRegs_next {k count : Nat} {s t : State} (h : loadRegs k count s = .next t) :
    ∃ v, t = { s with v := v } := by
  induction count generalizing k s with
  | zero =>
    have hs : s = t := by simpa [loadRegs] using h
    exact ⟨s.v, hs.symm⟩
  | succ count ih =>
    obtain ⟨b, -, h1⟩ := andThen_next_iff.1 h
    obtain ⟨s', h2, h3⟩ := andThen_next_iff.1 h1
    unfold writeReg at h2
    split at h2
    · cases h2
      obtain ⟨v, rfl⟩ := ih h3
      exact ⟨v, rfl⟩
    · cases h2

theorem loadRegs_completes {k count : Nat} {s : State} (hk : k + count ≤ 16) (h : s.i.toNat + k + count ≤ 4096) :
    ∃ t, loadRegs k count s = .next t
      ∧ (∀ j : Reg, k ≤ j.val → j.val < k + count → t.getV j = Memory.peek s.mem (s.i.toNat + j.val))
      ∧ ChangesOnly (fun p => ∃ j : Reg, k ≤ j.val ∧ j.val < k + count ∧ p = .v j) s t := by
  induction count generalizing k s with
  | zero => exact ⟨s, rfl, fun j h1 h2 => by omega, .refl _ s⟩
  | succ count ih =>
    have hk16 : k < 16 := by omega
    let s' := s.setV ⟨k, hk16⟩ (Memory.peek s.mem (s.i.toNat + k))
    obtain ⟨t, h1, h2, h3⟩ := ih (k := k + 1) (s := s') (by omega) (by simp only [s', setV_i]; omega)
    refine ⟨t, ?_, ?_, ?_⟩
    · rw [loadRegs, blockAddress, memRead_of_lt s (by omega), andThen_of_next, writeReg_of_lt _ s hk16]
      exact h1
    · intro j hj1 hj2
      by_cases hj : j.val = k
      · have hjk : j = ⟨k, hk16⟩ := Fin.ext hj
        have := h3 (.v j) (by
          rintro ⟨q, h4, -, h5⟩
          simp only [Piece.v.injEq] at h5
          rw [h5] at hj
          omega)
        simp only [Agree] at this
        rw [this, hjk]
        exact setV_getV_same _ _ _
      · exact h2 j (by omega) (by omega)
    · refine ((changesOnly_setV s _ _).mono ?_).trans (h3.mono ?_)
      · rintro p rfl; exact ⟨⟨k, hk16⟩, Nat.le_refl _, by simp only; omega, rfl⟩
      · rintro p ⟨j, h4, h5, rfl⟩; exact ⟨j, by omega, by omega, rfl⟩

theorem loadRegs_stops {k count : Nat} {s : State} (hc : 0 < count) (hk : k + count ≤ 16)
    (h : 4096 < s.i.toNat + k + count) :
    loadRegs k count s = .fault (.outOfBoundsMemoryAccess (max (s.i.toNat + k) 4096)) := by
  induction count generalizing k s with
  | zero => omega
  | succ count ih =>
    rw [loadRegs, blockAddress]
    by_cases ha : s.i.toNat + k < 4096
    · rw [memRead_of_lt s ha, andThen_of_next, writeReg_of_lt _ s (by omega), andThen_of_next,
        ih (by omega) (by omega) (by simp only [setV_i]; omega), setV_i]
      rw [show max (s.i.toNat + (k + 1)) 4096 = max (s.i.toNat + k) 4096 by omega]
    · rw [memRead_of_ge s (by omega), andThen_of_fault, Nat.max_eq_left (by omega)]

/-! Call stack. -/

theorem push_of_lt {a : Word} {s : State} (h : s.sp.toNat < 16) :
    push a s = .next ((s.setStack ⟨s.sp.toNat, h⟩ a).setSp (s.sp + 1)) := by
  have hne : s.sp ≠ 16 := by rintro he; rw [he] at h; exact absurd h (by decide)
  rw [push, if_neg hne, dif_pos h]

theorem push_of_full {a : Word} {s : State} (h : s.sp = 16) : push a s = .fault .stackOverflow := by
  rw [push, if_pos h, raise_stackOverflow]

theorem push_next_iff {a : Word} {s t : State} :
    push a s = .next t ↔ ∃ h : s.sp.toNat < 16, t = (s.setStack ⟨s.sp.toNat, h⟩ a).setSp (s.sp + 1) := by
  constructor
  · intro hp
    unfold push at hp
    split at hp
    · simp at hp
    · split at hp
      · rename_i h
        exact ⟨h, (Host.Outcome.next.inj hp).symm⟩
      · cases hp
  · rintro ⟨h, rfl⟩
    exact push_of_lt h

theorem pop_of_pos {s : State} (h0 : 0 < s.sp.toNat) (h : s.sp.toNat - 1 < 16) :
    pop s = .next (s.stack[s.sp.toNat - 1], s.setSp (s.sp - 1)) := by
  have hne : s.sp ≠ 0 := by rintro he; rw [he] at h0; exact absurd h0 (by decide)
  rw [pop, if_neg hne, dif_pos h]

theorem pop_of_empty {s : State} (h : s.sp = 0) : pop s = .fault .stackUnderflow := by
  rw [pop, if_pos h, raise_stackUnderflow]

theorem pop_next_iff {s : State} {r : Word × State} :
    pop s = .next r ↔ 0 < s.sp.toNat ∧ ∃ h : s.sp.toNat - 1 < 16, r = (s.stack[s.sp.toNat - 1], s.setSp (s.sp - 1)) := by
  constructor
  · intro hp
    unfold pop at hp
    split at hp
    · simp at hp
    · rename_i h0
      split at hp
      · rename_i h
        exact ⟨Nat.pos_of_ne_zero fun h' => h0 (BitVec.eq_of_toNat_eq h'), h, (Host.Outcome.next.inj hp).symm⟩
      · cases hp
  · rintro ⟨h0, h, rfl⟩
    exact pop_of_pos h0 h

/-! Fetch. -/

theorem fetch_completes {s : State} (h : s.pc.toNat + 1 < 4096) :
    fetch s = .next (wordOf (Memory.peek s.mem s.pc.toNat) (Memory.peek s.mem (s.pc.toNat + 1)), s.pcPlus2) := by
  rw [fetch, memRead_of_lt s (by omega), andThen_of_next, memRead_of_lt s h, andThen_of_next]

theorem fetch_next_iff {s : State} {r : Word × State} :
    fetch s = .next r ↔ s.pc.toNat + 1 < 4096 ∧
      r = (wordOf (Memory.peek s.mem s.pc.toNat) (Memory.peek s.mem (s.pc.toNat + 1)), s.pcPlus2) := by
  by_cases h : s.pc.toNat + 1 < 4096
  · simp [fetch_completes h, h, eq_comm]
  · constructor
    · intro hf
      obtain ⟨hi, -, h2⟩ := andThen_next_iff.1 hf
      obtain ⟨lo, h3, -⟩ := andThen_next_iff.1 h2
      exact absurd (memRead_next_iff.1 h3).1 h
    · exact fun hr => absurd hr.1 h

/-- What a Step that completes has done: fetched a word, advanced PC and run the instruction it decodes to (R107). -/
theorem step_next_iff {s t : State} :
    step s = .next t ↔ s.fault = none ∧ s.pc.toNat + 1 < 4096 ∧
      ∃ i, decodeWord (wordOf (Memory.peek s.mem s.pc.toNat) (Memory.peek s.mem (s.pc.toNat + 1))) = .ok i
        ∧ exec i s.pcPlus2 = .next t := by
  simp only [step, cycle, requireRunning_next_iff, andThen_next_iff, fetch_next_iff]
  constructor
  · rintro ⟨hf, r, ⟨hpc, rfl⟩, hr⟩
    refine ⟨hf, hpc, ?_⟩
    simp only [runWord] at hr
    split at hr
    · exact ⟨_, ‹_›, hr⟩
    · simp at hr
  · rintro ⟨hf, hpc, i, hd, he⟩
    exact ⟨hf, _, ⟨hpc, rfl⟩, by simp only [runWord, hd, he]⟩

end Sys2Proof.Machine
end

