-- ==== Sys2Proof/Laws/PerInstr.lean ====
section
/-! SUPPORT. Statements made of every instruction, one lemma per constructor. EncodedNumber: the word of a well-formed
instruction, as a number, is the sum its pattern reads as (spec/30_encoding.md R77, R88). -/

namespace Sys2Proof

/-- The hex pattern of an instruction read as a number (R80, R88). -/
def wordNumber : Instr → Nat
  | .cls => 0x00E0
  | .ret => 0x00EE
  | .jp nnn => 0x1000 + nnn.toNat
  | .call nnn => 0x2000 + nnn.toNat
  | .seByte x kk => 0x3000 + 256 * x.val + kk.toNat
  | .sneByte x kk => 0x4000 + 256 * x.val + kk.toNat
  | .seReg x y => 0x5000 + 256 * x.val + 16 * y.val
  | .ldByte x kk => 0x6000 + 256 * x.val + kk.toNat
  | .addByte x kk => 0x7000 + 256 * x.val + kk.toNat
  | .ldReg x y => 0x8000 + 256 * x.val + 16 * y.val
  | .orReg x y => 0x8001 + 256 * x.val + 16 * y.val
  | .andReg x y => 0x8002 + 256 * x.val + 16 * y.val
  | .xorReg x y => 0x8003 + 256 * x.val + 16 * y.val
  | .addReg x y => 0x8004 + 256 * x.val + 16 * y.val
  | .sub x y => 0x8005 + 256 * x.val + 16 * y.val
  | .shr x y => 0x8006 + 256 * x.val + 16 * y.val
  | .subn x y => 0x8007 + 256 * x.val + 16 * y.val
  | .shl x y => 0x800E + 256 * x.val + 16 * y.val
  | .sneReg x y => 0x9000 + 256 * x.val + 16 * y.val
  | .ldI nnn => 0xA000 + nnn.toNat
  | .jpV0 nnn => 0xB000 + nnn.toNat
  | .rnd x kk => 0xC000 + 256 * x.val + kk.toNat
  | .drw x y n => 0xD000 + 256 * x.val + 16 * y.val + n
  | .skp x => 0xE09E + 256 * x.val
  | .sknp x => 0xE0A1 + 256 * x.val
  | .ldVxDt x => 0xF007 + 256 * x.val
  | .ldVxK x => 0xF00A + 256 * x.val
  | .ldDtVx x => 0xF015 + 256 * x.val
  | .ldStVx x => 0xF018 + 256 * x.val
  | .addI x => 0xF01E + 256 * x.val
  | .ldF x => 0xF029 + 256 * x.val
  | .ldB x => 0xF033 + 256 * x.val
  | .ldMemVx x => 0xF055 + 256 * x.val
  | .ldVxMem x => 0xF065 + 256 * x.val

namespace Laws.EncodedNumber

/-- The encoder writes the number of the pattern. -/
def Statement (i : Instr) : Prop := i.wf = true → (encodeWord i).toNat = wordNumber i

theorem cls : Statement (.cls) := fun _ => rfl
theorem ret : Statement (.ret) := fun _ => rfl
theorem jp (nnn : BitVec 12) : Statement (.jp nnn) := fun _ => encA_toNat _ nnn rfl
theorem call (nnn : BitVec 12) : Statement (.call nnn) := fun _ => encA_toNat _ nnn rfl
theorem seByte (x : Reg) (kk : Byte) : Statement (.seByte x kk) := fun _ => encXK_toNat _ x kk rfl
theorem sneByte (x : Reg) (kk : Byte) : Statement (.sneByte x kk) := fun _ => encXK_toNat _ x kk rfl
theorem seReg (x y : Reg) : Statement (.seReg x y) := fun _ => encXY_toNat _ x y rfl rfl
theorem ldByte (x : Reg) (kk : Byte) : Statement (.ldByte x kk) := fun _ => encXK_toNat _ x kk rfl
theorem addByte (x : Reg) (kk : Byte) : Statement (.addByte x kk) := fun _ => encXK_toNat _ x kk rfl
theorem ldReg (x y : Reg) : Statement (.ldReg x y) := fun _ => encXY_toNat _ x y rfl rfl
theorem orReg (x y : Reg) : Statement (.orReg x y) := fun _ => encXY_toNat _ x y rfl rfl
theorem andReg (x y : Reg) : Statement (.andReg x y) := fun _ => encXY_toNat _ x y rfl rfl
theorem xorReg (x y : Reg) : Statement (.xorReg x y) := fun _ => encXY_toNat _ x y rfl rfl
theorem addReg (x y : Reg) : Statement (.addReg x y) := fun _ => encXY_toNat _ x y rfl rfl
theorem sub (x y : Reg) : Statement (.sub x y) := fun _ => encXY_toNat _ x y rfl rfl
theorem shr (x y : Reg) : Statement (.shr x y) := fun _ => encXY_toNat _ x y rfl rfl
theorem subn (x y : Reg) : Statement (.subn x y) := fun _ => encXY_toNat _ x y rfl rfl
theorem shl (x y : Reg) : Statement (.shl x y) := fun _ => encXY_toNat _ x y rfl rfl
theorem sneReg (x y : Reg) : Statement (.sneReg x y) := fun _ => encXY_toNat _ x y rfl rfl
theorem ldI (nnn : BitVec 12) : Statement (.ldI nnn) := fun _ => encA_toNat _ nnn rfl
theorem jpV0 (nnn : BitVec 12) : Statement (.jpV0 nnn) := fun _ => encA_toNat _ nnn rfl
theorem rnd (x : Reg) (kk : Byte) : Statement (.rnd x kk) := fun _ => encXK_toNat _ x kk rfl
theorem drw (x y : Reg) (n : Nat) : Statement (.drw x y n) := fun h => encXYN_toNat _ x y n rfl (by simpa [Instr.wf] using h)
theorem skp (x : Reg) : Statement (.skp x) := fun _ => encXS_toNat _ x rfl
theorem sknp (x : Reg) : Statement (.sknp x) := fun _ => encXS_toNat _ x rfl
theorem ldVxDt (x : Reg) : Statement (.ldVxDt x) := fun _ => encXS_toNat _ x rfl
theorem ldVxK (x : Reg) : Statement (.ldVxK x) := fun _ => encXS_toNat _ x rfl
theorem ldDtVx (x : Reg) : Statement (.ldDtVx x) := fun _ => encXS_toNat _ x rfl
theorem ldStVx (x : Reg) : Statement (.ldStVx x) := fun _ => encXS_toNat _ x rfl
theorem addI (x : Reg) : Statement (.addI x) := fun _ => encXS_toNat _ x rfl
theorem ldF (x : Reg) : Statement (.ldF x) := fun _ => encXS_toNat _ x rfl
theorem ldB (x : Reg) : Statement (.ldB x) := fun _ => encXS_toNat _ x rfl
theorem ldMemVx (x : Reg) : Statement (.ldMemVx x) := fun _ => encXS_toNat _ x rfl
theorem ldVxMem (x : Reg) : Statement (.ldVxMem x) := fun _ => encXS_toNat _ x rfl

end Laws.EncodedNumber

end Sys2Proof
end

