-- ==== Sys2Proof/Laws/Screen.lean ====
section
/-! SUPPORT. The rasterizer: one toggle, the positions a sprite touches, and that no two of them are one pixel
(spec/44_screen.md R177, R178). -/

namespace Sys2Proof.Machine

theorem toggle_row (p : Screen) (r r' : Fin 32) (c : Fin 64) :
    (Screen.toggle p r c)[r'.val] = if r' = r then p[r.val].set c.val (!Screen.get p r c) else p[r'.val] := by
  show (p.set r.val (p[r.val].set c.val (!Screen.get p r c)))[r'.val] = _
  rw [Vector.getElem_set]
  simp only [Fin.ext_iff, eq_comm]

theorem get_toggle (p : Screen) (r r' : Fin 32) (c c' : Fin 64) :
    Screen.get (Screen.toggle p r c) r' c' = if r' = r ∧ c' = c then !Screen.get p r c else Screen.get p r' c' := by
  have hrow := congrArg (fun v : Vector Bool 64 => v[c'.val]) (toggle_row p r r' c)
  refine hrow.trans ?_
  by_cases hr : r' = r
  · subst hr
    simp only [if_true, true_and, Vector.getElem_set, Fin.ext_iff, eq_comm]
    rfl
  · simp only [hr, false_and, if_false]
    rfl

@[simp] theorem get_blank (r : Fin 32) (c : Fin 64) : Screen.get Screen.blank r c = false := by
  simp [Screen.get, Screen.blank]

/-- Two screens with the same pixels are the same data. -/
theorem screen_ext {p q : Screen} (h : ∀ r c, Screen.get p r c = Screen.get q r c) : p = q := by
  apply Vector.ext
  intro r hr
  apply Vector.ext
  intro c hc
  exact h ⟨r, hr⟩ ⟨c, hc⟩

/-- A pixel's position: row, then column. -/
abbrev Pos := Fin 32 × Fin 64

/-- The pixel of sprite position (row, col) of a draw at (x, y) (R175). -/
def spritePos (x y : Byte) (row col : Nat) : Pos := (wrapRow (y.toNat + row), wrapCol (x.toNat + col))

/-- The pixels under the 1 bits of one sprite row, in the order they are visited. -/
def bitPositions (x y : Byte) (row : Nat) (b : Byte) (cols : List Nat) : List Pos :=
  (cols.filter fun col => b.getLsbD (7 - col)).map (spritePos x y row)

/-- The pixels under the 1 bits of a sprite, in the order they are visited. -/
def spritePositions (x y : Byte) : Nat → List Byte → List Pos
  | _, [] => []
  | row, b :: bs => bitPositions x y row b spriteCols ++ spritePositions x y (row + 1) bs

/-- Toggle pixels one after another, noting collisions. -/
def toggleAll : List Pos → Screen × Bool → Screen × Bool
  | [], d => d
  | p :: ps, d => toggleAll ps (Screen.toggle d.1 p.1 p.2, d.2 || Screen.get d.1 p.1 p.2)

theorem toggleAll_append (ps qs : List Pos) (d : Screen × Bool) :
    toggleAll (ps ++ qs) d = toggleAll qs (toggleAll ps d) := by
  induction ps generalizing d with
  | nil => rfl
  | cons p ps ih => exact ih _

theorem drawBits_eq (x y : Byte) (row : Nat) (b : Byte) (cols : List Nat) (d : Screen × Bool) :
    drawBits x y row b cols d = toggleAll (bitPositions x y row b cols) d := by
  induction cols generalizing d with
  | nil => rfl
  | cons col cols ih =>
    rw [drawBits, ih]
    by_cases hb : b.getLsbD (7 - col) = true
    · simp only [hb, if_true, bitPositions, List.filter_cons_of_pos, List.map_cons]
      rfl
    · simp only [hb, bitPositions]
      rw [List.filter_cons_of_neg (by simpa using hb)]
      rfl

theorem drawRows_eq (x y : Byte) (row : Nat) (bs : List Byte) (d : Screen × Bool) :
    drawRows x y row bs d = toggleAll (spritePositions x y row bs) d := by
  induction bs generalizing row d with
  | nil => rfl
  | cons b bs ih => rw [drawRows, ih, drawBits_eq, spritePositions, toggleAll_append]

theorem drawSprite_eq (x y : Byte) (bs : List Byte) (p : Screen) :
    drawSprite x y bs p = toggleAll (spritePositions x y 0 bs) (p, false) := drawRows_eq x y 0 bs (p, false)

/-! What toggling a list of different pixels does. -/

theorem toggleAll_get_of_not_mem {ps : List Pos} (d : Screen × Bool) {r : Fin 32} {c : Fin 64} (h : (r, c) ∉ ps) :
    Screen.get (toggleAll ps d).1 r c = Screen.get d.1 r c := by
  induction ps generalizing d with
  | nil => rfl
  | cons p ps ih =>
    rw [toggleAll, ih _ (fun hm => h (List.mem_cons_of_mem _ hm)), get_toggle, if_neg]
    rintro ⟨rfl, rfl⟩
    exact h (List.mem_cons_self ..)

theorem toggleAll_get_of_mem {ps : List Pos} (d : Screen × Bool) {r : Fin 32} {c : Fin 64} (hn : ps.Nodup)
    (h : (r, c) ∈ ps) : Screen.get (toggleAll ps d).1 r c = !Screen.get d.1 r c := by
  induction ps generalizing d with
  | nil => cases h
  | cons p ps ih =>
    obtain ⟨hp, hn⟩ := List.nodup_cons.1 hn
    rw [toggleAll]
    rcases List.mem_cons.1 h with rfl | h
    · rw [toggleAll_get_of_not_mem _ hp, get_toggle, if_pos ⟨rfl, rfl⟩]
    · rw [ih _ hn h, get_toggle, if_neg]
      rintro ⟨rfl, rfl⟩
      exact hp h

theorem toggleAll_flag {ps : List Pos} (d : Screen × Bool) (hn : ps.Nodup) :
    (toggleAll ps d).2 = true ↔ d.2 = true ∨ ∃ q ∈ ps, Screen.get d.1 q.1 q.2 = true := by
  induction ps generalizing d with
  | nil => simp [toggleAll]
  | cons p ps ih =>
    obtain ⟨hp, hn⟩ := List.nodup_cons.1 hn
    rw [toggleAll, ih _ hn]
    have key : ∀ q ∈ ps, Screen.get (Screen.toggle d.1 p.1 p.2) q.1 q.2 = Screen.get d.1 q.1 q.2 := by
      intro q hq
      rw [get_toggle, if_neg]
      rintro ⟨h1, h2⟩
      exact hp (by rwa [show p = q from Prod.ext h1.symm h2.symm])
    constructor
    · rintro (h | ⟨q, hq, h⟩)
      · rcases Bool.or_eq_true_iff.1 h with h | h
        · exact .inl h
        · exact .inr ⟨p, List.mem_cons_self .., h⟩
      · exact .inr ⟨q, List.mem_cons_of_mem _ hq, by rwa [key q hq] at h⟩
    · rintro (h | ⟨q, hq, h⟩)
      · exact .inl (by simp [h])
      · rcases List.mem_cons.1 hq with rfl | hq
        · exact .inl (by simp [h])
        · exact .inr ⟨q, hq, by rwa [key q hq]⟩

/-! A sprite never meets itself (R178). -/

theorem wrapRow_inj {a b : Nat} (h : wrapRow a = wrapRow b) (hab : a ≤ b) (hlt : b < a + 32) : a = b := by
  have := congrArg Fin.val h
  simp only [wrapRow] at this
  omega

theorem wrapCol_inj {a b : Nat} (h : wrapCol a = wrapCol b) (hab : a ≤ b) (hlt : b < a + 64) : a = b := by
  have := congrArg Fin.val h
  simp only [wrapCol] at this
  omega

theorem bitPositions_nodup (x y : Byte) (row : Nat) (b : Byte) : (bitPositions x y row b spriteCols).Nodup := by
  refine List.Nodup.map_on ?_ ((show spriteCols.Nodup by decide).filter _)
  intro c hc c' hc' h
  have h8 : ∀ k ∈ spriteCols, k < 8 := by decide
  have hlt := h8 c (List.mem_filter.1 hc).1
  have hlt' := h8 c' (List.mem_filter.1 hc').1
  have hcol := (Prod.ext_iff.1 h).2
  simp only [spritePos] at hcol
  rcases Nat.le_total c c' with hle | hle
  · have := wrapCol_inj hcol (by omega) (by omega); omega
  · have := wrapCol_inj hcol.symm (by omega) (by omega); omega

theorem mem_bitPositions {x y : Byte} {row : Nat} {b : Byte} {q : Pos} :
    q ∈ bitPositions x y row b spriteCols ↔ ∃ col, col < 8 ∧ b.getLsbD (7 - col) = true ∧ spritePos x y row col = q := by
  have h8 : ∀ k, k ∈ spriteCols ↔ k < 8 := fun k => by simp [spriteCols]; omega
  simp [bitPositions, h8, and_assoc]

theorem mem_spritePositions {x y : Byte} {row : Nat} {bs : List Byte} {q : Pos} :
    q ∈ spritePositions x y row bs ↔
      ∃ k b col, bs[k]? = some b ∧ col < 8 ∧ b.getLsbD (7 - col) = true ∧ spritePos x y (row + k) col = q := by
  induction bs generalizing row with
  | nil => simp [spritePositions]
  | cons b bs ih =>
    rw [spritePositions, List.mem_append, mem_bitPositions, ih]
    constructor
    · rintro (⟨col, h⟩ | ⟨k, b', col, hk, h⟩)
      · exact ⟨0, b, col, rfl, h⟩
      · exact ⟨k + 1, b', col, by simpa using hk, by rwa [show row + (k + 1) = row + 1 + k by omega]⟩
    · rintro ⟨k, b', col, hk, h⟩
      cases k with
      | zero => cases Option.some.inj hk; exact .inl ⟨col, h⟩
      | succ k =>
        exact .inr ⟨k, b', col, by simpa using hk, by rwa [show row + 1 + k = row + (k + 1) by omega]⟩

theorem spritePositions_nodup (x y : Byte) (row : Nat) (bs : List Byte) (h : bs.length ≤ 32) :
    (spritePositions x y row bs).Nodup := by
  induction bs generalizing row with
  | nil => exact List.nodup_nil
  | cons b bs ih =>
    simp only [List.length_cons] at h
    refine (bitPositions_nodup x y row b).append (ih _ (by omega)) ?_
    intro q hq hq'
    obtain ⟨col, -, -, rfl⟩ := mem_bitPositions.1 hq
    obtain ⟨k, b', col', hk, -, -, he⟩ := mem_spritePositions.1 hq'
    have hlen := (List.getElem?_eq_some_iff.1 hk).1
    have := wrapRow_inj (Prod.ext_iff.1 he).1.symm (by omega) (by omega)
    omega

theorem getLsbD_iff_digit (b : Byte) (k : Nat) : b.getLsbD k = true ↔ b.toNat / 2 ^ k % 2 = 1 := by
  simp [BitVec.getLsbD, Nat.testBit_eq_decide_div_mod_eq]

/-- A pixel is among a sprite's positions exactly when it lies under one of its 1 bits. -/
theorem mem_spritePositions_iff_covered {x y : Byte} {bs : List Byte} {r : Fin 32} {c : Fin 64} :
    (r, c) ∈ spritePositions x y 0 bs ↔ Covered x y bs r c := by
  rw [mem_spritePositions]
  simp only [Covered, getLsbD_iff_digit, spritePos, Prod.ext_iff, Fin.ext_iff, wrapRow, wrapCol, Nat.zero_add]
  constructor
  · rintro ⟨k, b, col, h1, h2, h3, h4, h5⟩; exact ⟨k, col, b, h1, h2, h3, h4, h5⟩
  · rintro ⟨k, col, b, h1, h2, h3, h4, h5⟩; exact ⟨k, b, col, h1, h2, h3, h4, h5⟩

end Sys2Proof.Machine
end

