-- ==== Sys2Proof/Laws/Transact.lean ====
section
/-! SUPPORT. The host's transactions: a fresh state's fields, when each transaction completes and with what, and that no
completed transaction leaves a fault latched (spec/40_step_cycle.md R101, R111). -/

namespace Sys2Proof.Machine

@[simp] theorem fresh_v (r : Config.Reset0) (m : Memory) : (State.fresh r m).v = r.v := rfl
@[simp] theorem fresh_i (r : Config.Reset0) (m : Memory) : (State.fresh r m).i = r.i := rfl
@[simp] theorem fresh_pc (r : Config.Reset0) (m : Memory) : (State.fresh r m).pc = 0x200#16 := rfl
@[simp] theorem fresh_sp (r : Config.Reset0) (m : Memory) : (State.fresh r m).sp = 0 := rfl
@[simp] theorem fresh_dt (r : Config.Reset0) (m : Memory) : (State.fresh r m).dt = r.dt := rfl
@[simp] theorem fresh_st (r : Config.Reset0) (m : Memory) : (State.fresh r m).st = r.st := rfl
@[simp] theorem fresh_stack (r : Config.Reset0) (m : Memory) : (State.fresh r m).stack = r.stack := rfl
@[simp] theorem fresh_mem (r : Config.Reset0) (m : Memory) : (State.fresh r m).mem = m := rfl
@[simp] theorem fresh_pix (r : Config.Reset0) (m : Memory) : (State.fresh r m).pix = Screen.blank := rfl
@[simp] theorem fresh_key (r : Config.Reset0) (m : Memory) : (State.fresh r m).key = r.key := rfl
@[simp] theorem fresh_fault (r : Config.Reset0) (m : Memory) : (State.fresh r m).fault = none := rfl
@[simp] theorem fresh_draws (r : Config.Reset0) (m : Memory) : (State.fresh r m).draws = 0 := rfl

/-- When Reset completes and with what (R240, R242). -/
theorem resetMachine_next_iff {par : Config.Params} {program : List Byte} {draws : Nat} {t : State} :
    resetMachine par program draws = .next t ↔ program.length ≤ 3584 ∧
      (State.fresh par.reset0 (Memory.ofContents (resetContents par program))).setDraws draws = t := by
  by_cases h : 3584 < program.length
  · rw [resetMachine, if_pos h]
    simp [h]
  · rw [resetMachine, if_neg h]
    simp [Nat.not_lt.1 h]

/-- What memory reads as after Reset. -/
theorem resetMachine_peek {par : Config.Params} {program : List Byte} {draws : Nat} {t : State}
    (h : resetMachine par program draws = .next t) {a : Nat} (ha : a < 4096) :
    Memory.peek t.mem a = resetContents par program a := by
  obtain ⟨-, rfl⟩ := resetMachine_next_iff.1 h
  rw [setDraws_mem, fresh_mem, peek_ofContents _ ha]

/-- With the default parameters and no program, Reset's contents are what an unlisted address reads as. -/
theorem resetContents_defaults (a : Nat) : resetContents Config.defaults [] a = Config.resetByte a := by
  by_cases h : a < 80
  · rw [resetContents_font _ _ h, Config.resetByte, if_pos h, List.getD_eq_getElem _ _ h]
    rfl
  · rw [resetContents_rest _ _ (by omega) (by simp only [List.length_nil]; omega), Config.resetByte, if_neg h]
    rfl

/-- `State.reset` is what Reset leaves with the default parameters and an empty program (R36, R37). -/
theorem resetMachine_defaults : resetMachine Config.defaults [] 0 = .next State.reset := by
  refine resetMachine_next_iff.2 ⟨by decide, ?_⟩
  rw [funext resetContents_defaults, ofContents_resetByte]
  rfl

theorem resetMachine_fault_iff {par : Config.Params} {program : List Byte} {draws : Nat} {f : Fault} :
    resetMachine par program draws = .fault f ↔ 3584 < program.length ∧ Fault.programTooLarge program.length = f := by
  by_cases h : 3584 < program.length
  · rw [resetMachine, if_pos h]
    simp [h]
  · rw [resetMachine, if_neg h]
    simp [h]

theorem tick_next_iff {s t : State} :
    tick s = .next t ↔ s.fault = none ∧ (s.setDt (countDown s.dt)).setSt (countDown s.st) = t := by
  simp [tick, requireRunning_next_iff]

theorem keyEvent_next_iff {k : Option Key} {down : Bool} {s t : State} :
    keyEvent k down s = .next t ↔ s.fault = none ∧ (k = none ∧ s = t ∨ ∃ j, k = some j ∧ s.setKey j down = t) := by
  cases k <;> simp [keyEvent, requireRunning_next_iff]

/-- Every transaction but Reset needs a state with no fault latched (R111). -/
theorem transact_next_running {par : Config.Params} {x : Transaction} {s t : State} (hx : ∀ p, x ≠ .reset p)
    (h : transact par x s = .next t) : s.fault = none := by
  cases x with
  | reset p => exact absurd rfl (hx p)
  | step => exact (step_next_iff.1 h).1
  | tick => exact (tick_next_iff.1 h).1
  | keyEvent k down => exact (keyEvent_next_iff.1 h).1
  | readScreen | readDt | readSt =>
    obtain ⟨a, ha, -⟩ := andThen_next_iff.1 h
    exact (requireRunning_next_iff.1 ha).1

end Sys2Proof.Machine
end

