-- ==== Sys2Proof/Tests/Slice0.lean ====
section
/-! SUPPORT. Tests of the model on small states, expected results from spec/95_test_vectors.md and the rules it cites,
and for every statement with hypotheses a witness that meets them, at the ends of each clause's range. -/

namespace Sys2Proof.Tests

open Sys2Proof.Machine

/-! Small states. -/

/-- The state after Reset with an empty program: the start state of a vector. -/
def s0 : State := State.reset

/-- `s` with register `r` holding `b`. -/
def vAt (r : Reg) (b : Byte) (s : State) : State := s.setV r b

/-- `s` with byte `b` at address `a`. -/
def mAt (a : Nat) (b : Byte) (s : State) : State := s.setMem (Memory.poke s.mem a b)

/-- `s` with pixel (r, c) inverted. -/
def pAt (r : Fin 32) (c : Fin 64) (s : State) : State := s.setPix (Screen.toggle s.pix r c)

/-- `s` with a latched fault. -/
def faulted : State := s0.setFault (some .stackOverflow)

/-- One Step on the word `w`, and a check of the state it answers. -/
def after (w : Nat) (s : State) (check : State → Bool) : Bool :=
  match step (s.withFetchWord 16 w) with
  | .next t => check t
  | .fault _ => false
  | .refused _ => false

/-- One Step on the word `w` ends in the fault `f`. -/
def faults (w : Nat) (s : State) (f : Fault) : Bool :=
  match step (s.withFetchWord 16 w) with
  | .next _ => false
  | .fault g => g == f
  | .refused _ => false

/-- The outcome is a next state that passes the check. -/
def answers (x : Result State) (check : State → Bool) : Bool :=
  match x with
  | .next t => check t
  | .fault _ => false
  | .refused _ => false

/-- The outcome is the fault `f`. -/
def isFault (x : Result State) (f : Fault) : Bool :=
  match x with
  | .next _ => false
  | .fault g => g == f
  | .refused _ => false

/-- The byte at `a`. -/
def byteAt (t : State) (a : Nat) : Byte := Memory.peek t.mem a

/-- How many pixels of row `r` are set. -/
def rowCount (t : State) (r : Fin 32) : Nat := (t.pix[r.val]).toList.countP id

/-! Well-formedness: the one check an instruction's type does not make (R76, R78). -/

theorem test_wf_refuses_sixteen_rows : (Instr.drw 0 0 16).wf = false := by decide
theorem test_wf_takes_fifteen_rows : (Instr.drw 15 15 15).wf = true := by decide

/-! Decoding: a word of every row, written bit by bit from R80's patterns. -/

theorem test_decode_groups_0_to_2 :
    decodeTableWord 16 0b0000_0000_1110_0000 = some (.cls)
    ∧ decodeTableWord 16 0b0000_0000_1110_1110 = some (.ret)
    ∧ decodeTableWord 16 0b0001_1010_1011_1100 = some (.jp 0xABC)
    ∧ decodeTableWord 16 0b0010_0010_1111_0000 = some (.call 0x2F0) := by
  decide

theorem test_decode_skips :
    decodeTableWord 16 0b0011_1010_0111_1111 = some (.seByte 10 0x7F)
    ∧ decodeTableWord 16 0b0100_0001_1111_1110 = some (.sneByte 1 0xFE)
    ∧ decodeTableWord 16 0b0101_0010_0011_0000 = some (.seReg 2 3)
    ∧ decodeTableWord 16 0b1001_0010_0011_0000 = some (.sneReg 2 3) := by
  decide

theorem test_decode_loads_and_adds :
    decodeTableWord 16 0b0110_0001_0010_0011 = some (.ldByte 1 0x23)
    ∧ decodeTableWord 16 0b0111_1111_0000_0001 = some (.addByte 15 0x01)
    ∧ decodeTableWord 16 0b1000_0010_0011_0000 = some (.ldReg 2 3)
    ∧ decodeTableWord 16 0b1000_0000_0001_0100 = some (.addReg 0 1) := by
  decide

theorem test_decode_logic_and_random :
    decodeTableWord 16 0b1000_0100_0101_0001 = some (.orReg 4 5)
    ∧ decodeTableWord 16 0b1000_0100_0101_0010 = some (.andReg 4 5)
    ∧ decodeTableWord 16 0b1000_0100_0101_0011 = some (.xorReg 4 5)
    ∧ decodeTableWord 16 0b1100_0001_0000_1111 = some (.rnd 1 0x0F) := by
  decide

theorem test_decode_subtracts_and_shifts :
    decodeTableWord 16 0b1000_0110_0111_0101 = some (.sub 6 7)
    ∧ decodeTableWord 16 0b1000_0110_0111_0110 = some (.shr 6 7)
    ∧ decodeTableWord 16 0b1000_0110_0111_0111 = some (.subn 6 7)
    ∧ decodeTableWord 16 0b1000_0110_0111_1110 = some (.shl 6 7) := by
  decide

theorem test_decode_index_jump_draw :
    decodeTableWord 16 0b1010_0011_0000_0000 = some (.ldI 0x300)
    ∧ decodeTableWord 16 0b1011_0010_1111_1111 = some (.jpV0 0x2FF)
    ∧ decodeTableWord 16 0b1101_0001_0010_0101 = some (.drw 1 2 5) := by
  decide

theorem test_decode_keys :
    decodeTableWord 16 0b1110_1011_1001_1110 = some (.skp 11)
    ∧ decodeTableWord 16 0b1110_1011_1010_0001 = some (.sknp 11)
    ∧ decodeTableWord 16 0b1111_0010_0000_1010 = some (.ldVxK 2) := by
  decide

theorem test_decode_timers :
    decodeTableWord 16 0b1111_0011_0000_0111 = some (.ldVxDt 3)
    ∧ decodeTableWord 16 0b1111_1100_0001_0101 = some (.ldDtVx 12)
    ∧ decodeTableWord 16 0b1111_0001_0001_1000 = some (.ldStVx 1) := by
  decide

theorem test_decode_index_and_blocks :
    decodeTableWord 16 0b1111_0010_0001_1110 = some (.addI 2)
    ∧ decodeTableWord 16 0b1111_1010_0010_1001 = some (.ldF 10)
    ∧ decodeTableWord 16 0b1111_0010_0011_0011 = some (.ldB 2)
    ∧ decodeTableWord 16 0b1111_0001_0101_0101 = some (.ldMemVx 1)
    ∧ decodeTableWord 16 0b1111_1111_0110_0101 = some (.ldVxMem 15) := by
  decide

/-- R88: assembly gives the bytes of the word, high byte first (T-ENC-3). -/
theorem test_encode_drw : encode (.drw 1 2 5) = [0xD1, 0x25] := by decide
theorem test_encode_store : encode (.ldMemVx 1) = [0xF1, 0x55] := by decide

/-- T-ENC-1: the fields of 0x8AB4 and of 0xD12F. -/
theorem test_fields :
    fieldX 0x8AB4 = 0xA ∧ fieldY 0x8AB4 = 0xB ∧ fieldN 0x8AB4 = 4 ∧ fieldKk 0xD12F = 0x2F
    ∧ fieldNnn 0xD12F = 0x12F := by
  decide

/-- T-FLT-1 to T-FLT-6: reserved words. -/
theorem test_reserved_words :
    ([0x0000, 0x00E1, 0x00FE, 0x0123, 0x5231, 0x9231, 0x8238, 0x823F, 0xE000, 0xE19F].all
      fun x => decodeTableWord 16 x == none) = true
    ∧ ([0xF000, 0xF130, 0xF175, 0xF185, 0xFFFF].all fun x => decodeTableWord 16 x == none) = true := by
  decide

/-- A single byte is no instruction (R75). -/
theorem test_decode_truncated : (match decode [0x61] with | .ok _ => false | .error e => e == .truncated) = true := by
  decide

/-! Control transfer and skips (T-FLOW). -/

/-- T-FLOW-19 -/
theorem test_jp : after 0x1FFF (s0) (fun t => t.pc == 0xFFF) = true := by decide
/-- T-FLOW-1: a jump to itself changes no state. -/
theorem test_jp_self :
    after 0x1208 (s0.setPc 0x208) (fun t =>
      t == (s0.setPc 0x208).withFetchWord 16 0x1208) = true := by
  decide
/-- T-FLOW-2 -/
theorem test_call :
    after 0x2300 (s0) (fun t =>
      t.pc == 0x300 && t.sp == 1 && t.stack[0] == 0x0202) = true := by
  decide
/-- T-FLOW-3 -/
theorem test_call_sixteenth :
    after 0x2300 (s0.setSp 15) (fun t =>
      t.sp == 16 && t.stack[15] == 0x0202) = true := by
  decide
/-- T-FLOW-4 -/
theorem test_call_full : faults 0x2300 (s0.setSp 16) .stackOverflow = true := by decide
/-- T-FLOW-5 -/
theorem test_ret :
    after 0x00EE (((s0.setPc 0x300).setSp 1).setStack 0 0x0202) (fun t =>
      t.pc == 0x202 && t.sp == 0 && t.stack[0] == 0x0202) = true := by
  decide
/-- T-FLOW-6 -/
theorem test_ret_empty : faults 0x00EE (s0) .stackUnderflow = true := by decide
/-- T-FLOW-7 -/
theorem test_seByte_equal : after 0x3100 (s0.setPc 0x208) (fun t => t.pc == 0x20C) = true := by decide
/-- T-FLOW-8 -/
theorem test_seByte_other : after 0x3100 ((vAt 1 1 s0).setPc 0x208) (fun t => t.pc == 0x20A) = true := by decide
/-- T-FLOW-9 -/
theorem test_sneByte_equal : after 0x4005 (vAt 0 5 s0) (fun t => t.pc == 0x202) = true := by decide
/-- T-FLOW-10 -/
theorem test_sneByte_other : after 0x4005 (vAt 0 6 s0) (fun t => t.pc == 0x204) = true := by decide
/-- T-FLOW-11, at 0x200 -/
theorem test_seReg_equal : after 0x5230 (vAt 2 7 (vAt 3 7 s0)) (fun t => t.pc == 0x204) = true := by decide
/-- T-FLOW-12, at 0x200 -/
theorem test_seReg_other : after 0x5230 (vAt 2 7 (vAt 3 8 s0)) (fun t => t.pc == 0x202) = true := by decide
/-- T-FLOW-14, at 0x200 -/
theorem test_sneReg_other : after 0x9230 (vAt 2 7 (vAt 3 8 s0)) (fun t => t.pc == 0x204) = true := by decide
/-- T-FLOW-15, at 0x200 -/
theorem test_sneReg_equal : after 0x9230 (vAt 2 7 (vAt 3 7 s0)) (fun t => t.pc == 0x202) = true := by decide
/-- T-FLOW-17 -/
theorem test_jpV0_uses_v0 : after 0xB2FF (vAt 0 1 (vAt 2 9 s0)) (fun t => t.pc == 0x300) = true := by decide
/-- T-FLOW-18 -/
theorem test_jpV0_past_memory : after 0xBFFF (vAt 0 0xFF s0) (fun t => t.pc == 0x10FE) = true := by decide
/-- T-FLOW-20 -/
theorem test_last_word : after 0x6000 (s0.setPc 0xFFE) (fun t => t.pc == 0x1000) = true := by decide
/-- T-FLT-7, T-FLT-8: the fetch faults on the second byte at 0xFFF and on the first at 0x1000. -/
theorem test_fetch_faults :
    isFault (step (s0.setPc 0xFFF)) (.outOfBoundsMemoryAccess 0x1000) = true
    ∧ isFault (step (s0.setPc 0x1000)) (.outOfBoundsMemoryAccess 0x1000) = true := by decide
/-- T-FLT-1: the empty program's first Step ends with IllegalInstruction(0x0000). -/
theorem test_empty_program : raised (step s0) = some (.illegalInstruction 0) := by decide

/-! Register instructions (T-ALU). -/

/-- T-ALU-1 -/
theorem test_ldByte : after 0x6FAB (s0) (fun t => t.getV 15 == 0xAB && t.pc == 0x202) = true := by decide
/-- T-ALU-2 -/
theorem test_addByte_wraps :
    after 0x71FF (vAt 1 5 (vAt 15 0x77 s0)) (fun t => t.getV 1 == 4 && t.getV 15 == 0x77) = true := by
  decide
/-- T-ALU-4 -/
theorem test_addByte_vF : after 0x7F01 (vAt 15 0xFF s0) (fun t => t.getV 15 == 0) = true := by decide
/-- T-ALU-5 -/
theorem test_ldReg :
    after 0x8230 (vAt 3 0x7E s0) (fun t =>
      t.getV 2 == 0x7E && t.getV 3 == 0x7E) = true := by
  decide
/-- T-ALU-7 -/
theorem test_orReg :
    after 0x8011 (vAt 0 0xF0 (vAt 1 0x0F (vAt 15 0xAA s0))) (fun t =>
      t.getV 0 == 0xFF && t.getV 15 == 0xAA) = true := by
  decide
/-- T-ALU-8 -/
theorem test_andReg :
    after 0x8012 (vAt 0 0xF0 (vAt 1 0x3C (vAt 15 0xAA s0))) (fun t =>
      t.getV 0 == 0x30 && t.getV 15 == 0xAA) = true := by
  decide
/-- T-ALU-9 -/
theorem test_xorReg :
    after 0x8013 (vAt 0 0xF0 (vAt 1 0x3C (vAt 15 0xAA s0))) (fun t =>
      t.getV 0 == 0xCC && t.getV 15 == 0xAA) = true := by
  decide
/-- T-ALU-12 -/
theorem test_addReg_carry :
    after 0x8014 (vAt 0 0xFF (vAt 1 0xFF s0)) (fun t => t.getV 0 == 0xFE && t.getV 15 == 1) = true := by
  decide
/-- T-ALU-15: the sum overwrites the carry. -/
theorem test_addReg_into_vF :
    after 0x8F14 (vAt 15 0xF0 (vAt 1 0x20 s0)) (fun t => t.getV 15 == 0x10) = true := by
  decide
/-- T-ALU-18 -/
theorem test_sub_borrow :
    after 0x8015 (vAt 0 3 (vAt 1 10 s0)) (fun t => t.getV 0 == 0xF9 && t.getV 15 == 0) = true := by
  decide
/-- T-ALU-19: the comparison is strict. -/
theorem test_sub_equal :
    after 0x8015 (vAt 0 5 (vAt 1 5 (vAt 15 1 s0))) (fun t => t.getV 0 == 0 && t.getV 15 == 0) = true := by
  decide
/-- T-ALU-30 -/
theorem test_subn :
    after 0x8017 (vAt 0 3 (vAt 1 10 s0)) (fun t => t.getV 0 == 7 && t.getV 15 == 1) = true := by
  decide
/-- T-ALU-34: the old VF is the operand. -/
theorem test_subn_old_vF :
    after 0x80F7 (vAt 0 5 (vAt 15 7 s0)) (fun t => t.getV 0 == 2 && t.getV 15 == 1) = true := by
  decide
/-- T-ALU-26 -/
theorem test_shr_ignores_y :
    after 0x8016 (vAt 0 5 (vAt 1 0xFF s0)) (fun t =>
      t.getV 0 == 2 && t.getV 1 == 0xFF && t.getV 15 == 1) = true := by
  decide
/-- T-ALU-29 -/
theorem test_shr_vF : after 0x8F06 (vAt 15 3 s0) (fun t => t.getV 15 == 1) = true := by decide
/-- T-ALU-35 -/
theorem test_shl : after 0x800E (vAt 0 0x81 s0) (fun t => t.getV 0 == 0x02 && t.getV 15 == 1) = true := by decide
/-- T-ALU-36 -/
theorem test_shl_low :
    after 0x800E (vAt 0 0x41 (vAt 15 1 s0)) (fun t => t.getV 0 == 0x82 && t.getV 15 == 0) = true := by
  decide
/-- T-ALU-40: with the mask 0 the result is 0 for every random byte. -/
theorem test_rnd_mask_zero : ∀ t, exec (.rnd 1 0) (vAt 1 9 s0) = .next t → t.getV 1 = 0 ∧ t.draws = 1 := by
  intro t h
  cases h
  refine ⟨?_, rfl⟩
  show (Config.random8 0 &&& 0) = 0
  simp

/-! Index register and memory blocks (T-IDX). -/

/-- T-IDX-1 -/
theorem test_ldI : after 0xAFFF (s0) (fun t => t.i == 0x0FFF) = true := by decide
/-- T-IDX-3 -/
theorem test_addI_past_memory :
    after 0xF01E (vAt 0 1 (vAt 15 0x55 (s0.setI 0x0FFF))) (fun t =>
      t.i == 0x1000 && t.getV 15 == 0x55) = true := by
  decide
/-- T-IDX-4 -/
theorem test_addI_wraps : after 0xF01E (vAt 0 1 (s0.setI 0xFFFF)) (fun t => t.i == 0) = true := by decide
/-- T-IDX-6 -/
theorem test_ldF : after 0xF029 (vAt 0 0x0A (s0.setI 0x999)) (fun t => t.i == 0x32) = true := by decide
/-- T-IDX-10 -/
theorem test_ldF_not_masked : after 0xF029 (vAt 0 255 s0) (fun t => t.i == 0x04FB) = true := by decide
/-- T-IDX-15 -/
theorem test_ldB :
    after 0xF033 (vAt 0 123 (s0.setI 0xFFD)) (fun t =>
      byteAt t 0xFFD == 1 && byteAt t 0xFFE == 2 && byteAt t 0xFFF == 3 && t.i == 0xFFD) = true := by
  decide
/-- T-IDX-16 -/
theorem test_ldB_end : faults 0xF033 (vAt 0 123 (s0.setI 0xFFE)) (.outOfBoundsMemoryAccess 0x1000) = true := by decide
/-- T-IDX-18 -/
theorem test_ldMemVx :
    after 0xF155 (vAt 0 0x0F (vAt 2 0x77 (mAt 0x401 0xEE (s0.setI 0x400)))) (fun t =>
      byteAt t 0x400 == 0x0F && byteAt t 0x401 == 0 && byteAt t 0x402 == 0 && t.i == 0x400) = true := by
  decide
/-- T-IDX-22 -/
theorem test_ldMemVx_end : faults 0xF155 (s0.setI 0xFFF) (.outOfBoundsMemoryAccess 0x1000) = true := by decide
/-- T-IDX-24 -/
theorem test_ldVxMem :
    after 0xF265 (vAt 3 0x99 (mAt 0x300 2 (mAt 0x301 3 (mAt 0x302 4 (mAt 0x303 5 (s0.setI 0x300)))))) (fun t =>
      t.getV 0 == 2 && t.getV 1 == 3 && t.getV 2 == 4 && t.getV 3 == 0x99 && t.i == 0x300) = true := by
  decide
/-- T-IDX-28, with the default FONT (log 1). -/
theorem test_ldVxMem_glyph :
    after 0xF465 (s0) (fun t =>
      t.getV 0 == 0xF0 && t.getV 1 == 0x90 && t.getV 4 == 0xF0) = true := by
  decide

/-! Screen (T-SCR). -/

/-- T-SRC-3 -/
theorem test_cls :
    after 0x00E0 (pAt 5 7 (pAt 31 63 (vAt 15 1 s0))) (fun t =>
      !Screen.get t.pix 5 7 && !Screen.get t.pix 31 63 && t.getV 15 == 1) = true := by
  decide
/-- T-SCR-10 with a second row: (255, 255) is column 63 of row 31, and both wrap to 0 (R175, R177). -/
theorem test_drw_wraps :
    after 0xD012 (vAt 0 0xFF (vAt 1 0xFF (mAt 0x300 0xC0 (mAt 0x301 0x80 (s0.setI 0x300))))) (fun t =>
      Screen.get t.pix 31 63 && Screen.get t.pix 31 0 && Screen.get t.pix 0 63
      && rowCount t 31 == 2 && rowCount t 0 == 1 && t.getV 15 == 0) = true := by
  decide
/-- T-SCR-11 -/
theorem test_drw_collides :
    after 0xD011 (pAt 0 0 (pAt 0 1 (mAt 0x300 0x60 (s0.setI 0x300)))) (fun t =>
      Screen.get t.pix 0 0 && !Screen.get t.pix 0 1
      && Screen.get t.pix 0 2 && rowCount t 0 == 2 && t.getV 15 == 1) = true := by
  decide
/-- T-SCR-3, T-SCR-6: the range check, on the exact sum. -/
theorem test_drw_faults :
    faults 0xD010 (s0.setI 0x1001) (.outOfBoundsMemoryAccess 0x1000) = true
    ∧ faults 0xD01F (s0.setI 0xFFFF) (.outOfBoundsMemoryAccess 0x1000D) = true := by decide

/-! Keys and timers (T-KEY, T-TMR). -/

/-- T-KEY-1 -/
theorem test_skp_down : after 0xE09E (vAt 0 5 (s0.setKey 5 true)) (fun t => t.pc == 0x204) = true := by decide
/-- T-KEY-8 -/
theorem test_skp_not_masked :
    after 0xE09E (vAt 0 0x15 (s0.setKey 5 true)) (fun t => t.pc == 0x202) = true := by
  decide
/-- T-KEY-3 -/
theorem test_sknp_up : after 0xE0A1 (vAt 0 5 s0) (fun t => t.pc == 0x204) = true := by decide
/-- T-KEY-5 -/
theorem test_sknp_down : after 0xE0A1 (vAt 0 5 (s0.setKey 5 true)) (fun t => t.pc == 0x202) = true := by decide
/-- T-KEY-4 -/
theorem test_ldVxK_highest :
    after 0xF20A ((s0.setKey 3 true).setKey 9 true) (fun t => t.getV 2 == 9 && t.pc == 0x202) = true := by
  decide
/-- T-KEY-9 -/
theorem test_ldVxK_waits : after 0xF20A (s0) (fun t => t == s0.withFetchWord 16 0xF20A) = true := by decide
/-- T-TMR-1 -/
theorem test_ldVxDt : after 0xF307 (s0.setDt 0x2A) (fun t => t.getV 3 == 0x2A && t.dt == 0x2A) = true := by decide
/-- T-TMR-3 -/
theorem test_ldDtVx : after 0xF015 (vAt 0 0x3C s0) (fun t => t.dt == 0x3C && t.st == 0) = true := by decide
/-- T-TMR-5 -/
theorem test_ldStVx : after 0xF118 (vAt 1 5 s0) (fun t => t.st == 5 && t.dt == 0) = true := by decide
/-- T-TMR-6 -/
theorem test_tick :
    answers (tick ((s0.setDt 2).setSt 1)) (fun t => t.dt == 1 && t.st == 0 && t.pc == 0x200) = true := by
  decide
/-- T-TMR-7 -/
theorem test_tick_floor : answers (tick ((s0.setDt 1).setSt 0)) (fun t => t.dt == 0 && t.st == 0) = true := by decide
/-- T-KEY-14 -/
theorem test_keyEvent : answers (keyEvent (some 7) true s0) (fun t => t == s0.setKey 7 true) = true := by decide

/-! Reset and loading (T-SRC-2). -/

/-- Three bytes at 0x200, the font at 0, the byte after the program 0. -/
theorem test_reset_loads :
    answers (transact Config.defaults (.reset [0x12, 0x00, 0x60]) (vAt 0 9 s0)) (fun t =>
      byteAt t 0x200 == 0x12 && byteAt t 0x201 == 0 && byteAt t 0x202 == 0x60 && byteAt t 0x203 == 0
      && byteAt t 0 == 0xF0 && t.pc == 0x200 && t.getV 0 == 0) = true := by
  decide +kernel

theorem test_reset_too_large :
    isFault (transact Config.defaults (.reset (List.replicate 3585 0xAA)) s0) (.programTooLarge 3585) = true := by
  decide +kernel

theorem test_reset_longest :
    answers (transact Config.defaults (.reset (List.replicate 3584 0xAA)) s0) (fun _ => true) = true := by
  decide +kernel

/-- Parameters that differ from the defaults in every piece: font bytes 0x11, registers 1, keys down, cells 0x33. -/
def otherParams : Config.Params where
  font := Vector.replicate 80 0x11
  reset0 := { v := Vector.replicate 16 1, i := 2, dt := 3, st := 4, stack := Vector.replicate 16 5,
              mem := fun _ => 0x33, key := Vector.replicate 16 true }

/-- R5, R37, R243: a second Reset loads the block's own FONT and RESET0 again, whatever ran before. -/
theorem test_reset_other_parameters :
    answers (runSchedule otherParams [.reset [0x60], .keyEvent (some 5) false, .tick, .reset [0x61]] faulted) (fun t =>
      byteAt t 79 == 0x11 && byteAt t 80 == 0x33 && byteAt t 0x200 == 0x61 && byteAt t 0x201 == 0x33
      && t.getV 15 == 1 && t.i == 2 && t.dt == 3 && t.st == 4 && t.stack[15] == 5 && t.keyDown 5 && t.sp == 0
      && t.pc == 0x200) = true := by
  decide +kernel

/-- A write of what an unlisted address reads as removes the entry: memory goes back to the empty list. -/
theorem test_memory_canonical :
    (mAt 0x300 0 (mAt 0x300 5 s0)).mem = [] ∧ (mAt 2 0x90 (mAt 2 1 s0)).mem = [] := by decide

/-- A word placed for the fetch from a state with a latched fault and PC past the end runs as the next Step. -/
theorem test_withFetchWord : after 0x6123 ((faulted).setPc 0x1000) (fun t => t.getV 1 == 0x23 && t.pc == 0x202) = true := by
  decide

/-! Witnesses: states and operands that meet the hypotheses of each statement, clause by clause. -/

theorem witness_DecodeOfEncodeIsTheInstruction : (Instr.drw 15 0 15).wf = true ∧ Instr.wf .cls = true := by decide
theorem witness_DecodedWordReencodes :
    decodeWord 0x8AB4 = .ok (.addReg 10 11) ∧ decodeWord 0xD12F = .ok (.drw 1 2 15) := by
  exact ⟨rfl, rfl⟩
theorem witness_ReservedWordsAreTheListedOnes :
    ReservedWord (0x0000 : Word).toNat ∧ ¬ ReservedWord (0x00E0 : Word).toNat ∧ ReservedWord (0x0FFF : Word).toNat
    ∧ ¬ ReservedWord (0x1000 : Word).toNat ∧ ReservedWord (0x8238 : Word).toNat ∧ ReservedWord (0xF175 : Word).toNat
    ∧ ¬ ReservedWord (0xFF65 : Word).toNat := by
  unfold ReservedWord
  refine ⟨?_, ?_, ?_, ?_, ?_, ?_, ?_⟩ <;> decide
theorem witness_FetchReadsTwoBytesAndAdvances :
    (s0.setPc 4094).pc.toNat < 4095 ∧ (s0.setPc 4095).pc.toNat = 4095 ∧ 4096 ≤ (s0.setPc 4096).pc.toNat
    ∧ 4096 ≤ (s0.setPc 0xFFFF).pc.toNat := by
  decide
/-- The reset state with `6123` at PC. -/
def s1 : State := s0.withFetchWord 16 0x6123
theorem witness_StepRunsTheDecodedInstruction :
    s1.fault = none ∧ s1.pc.toNat < 4095
    ∧ decode [Memory.peek s1.mem s1.pc.toNat, Memory.peek s1.mem (s1.pc.toNat + 1)] = .ok (.ldByte 1 0x23, []) := by
  exact ⟨rfl, by decide, rfl⟩
theorem witness_ReservedWordIsIllegalInstruction :
    s0.fault = none ∧ s0.pc.toNat < 4095 ∧ (0 : Word).toNat = wordAtPc s0 ∧ ReservedWord (0 : Word).toNat := by
  unfold ReservedWord; decide
theorem witness_RegisterAndProgramFaultsAreRaisedByNoStep :
    16 ≤ 16 ∧ ∃ p : List Byte, Transaction.reset (List.replicate 3585 0) = .reset p ∧ p.length = 3585 ∧ 3584 < 3585 := by
  exact ⟨by decide, _, rfl, List.length_replicate, by decide⟩
theorem witness_ExecuteFaultsHaveExactlyTheListedCauses :
    FaultCause .ret s0 .stackUnderflow ∧ FaultCause (.call 0x300) (s0.setSp 16) .stackOverflow
    ∧ FaultCause (.drw 0 0 2) (s0.setI 4095) (.outOfBoundsMemoryAccess 4096)
    ∧ FaultCause (.ldB 0) (s0.setI 4094) (.outOfBoundsMemoryAccess 4096)
    ∧ FaultCause (.ldMemVx 1) (s0.setI 4095) (.outOfBoundsMemoryAccess 4096)
    ∧ FaultCause (.ldVxMem 0) (s0.setI 4096) (.outOfBoundsMemoryAccess 4096) := by
  unfold FaultCause; decide
/-- The states just inside the bounds have no cause. -/
theorem witness_NoFaultCause :
    ¬ FaultCause .ret (s0.setSp 1) .stackUnderflow ∧ ¬ FaultCause (.call 0x300) (s0.setSp 15) .stackOverflow
    ∧ ¬ FaultCause (.drw 0 0 1) (s0.setI 4095) (.outOfBoundsMemoryAccess 4095)
    ∧ ¬ FaultCause (.ldB 0) (s0.setI 4093) (.outOfBoundsMemoryAccess 4096)
    ∧ ¬ FaultCause (.ldMemVx 15) (s0.setI 4080) (.outOfBoundsMemoryAccess 4096)
    ∧ ¬ FaultCause (.ldVxMem 0) (s0.setI 4095) (.outOfBoundsMemoryAccess 4096) := by
  unfold FaultCause
  decide
theorem witness_FaultedStateAllowsOnlyReset :
    faulted.fault = some .stackOverflow ∧ (∀ p, Transaction.step ≠ .reset p) ∧ ([] : List Byte).length ≤ 3584 := by
  exact ⟨rfl, nofun, by decide⟩
theorem witness_RaisedFaultIsLatched :
    raised (transact Config.defaults .step (s0.setPc 4096)) = some (.outOfBoundsMemoryAccess 4096)
    ∧ raised (transact Config.defaults .step s0) = some (.illegalInstruction 0) := by
  decide
/-- A state with one byte of memory written meets the invariant, also with all 16 slots live. -/
theorem inv_s1 : Inv s1 where
  mem := by decide
  sp := by decide
  pc := by decide
  live := fun j h => absurd h (Nat.not_lt_zero _)
  running := rfl

/-- The state with a full call stack of the lowest return address. -/
def sFull : State := { s1 with sp := 16, stack := Vector.replicate 16 2, pc := 0x10FE }

theorem inv_sFull : Inv sFull where
  mem := inv_s1.mem
  sp := by decide
  pc := by decide
  live := by decide
  running := rfl
theorem witness_StepKeepsTheInvariant : Inv s1 ∧ ∃ t, step s1 = .next t := by exact ⟨inv_s1, _, rfl⟩
theorem witness_TransactionsKeepTheInvariant :
    (∃ t, transact Config.defaults .step s1 = .next t ∧ Inv s1)
    ∧ ∃ t, transact otherParams (.reset [0x12]) faulted = .next t ∧ ∃ p, Transaction.reset [0x12] = .reset p := by
  exact ⟨⟨_, rfl, inv_s1⟩, _, rfl, _, rfl⟩
theorem witness_ReachableStatesMeetTheInvariant :
    Reachable Config.defaults s0
    ∧ ∃ t, transact Config.defaults .tick s0 = .next t ∧ Reachable Config.defaults t :=
  have h : Reachable Config.defaults s0 := .reset resetMachine_defaults
  ⟨h, _, rfl, .move (t := .tick) h rfl⟩
/-- A run from Reset that ends well at a jump to itself, and one from a faulted state that begins with Reset. -/
theorem witness_FaultedStateIsNeverTheEndOfAGoodRun :
    (s0.fault = none ∧ ∃ t, runSchedule Config.defaults [.tick, .tick] s0 = .next t)
    ∧ (∃ t, GoodRun Config.defaults (.afterSteps 0) [.reset [], .tick] faulted t)
    ∧ (∃ t, GoodRun Config.defaults (.afterSteps 1) [.step, .tick] s1 t)
    ∧ ∃ t, GoodRun Config.defaults .atSelfJump [.step] (s0.withFetchWord 16 0x1200) t := by
  refine ⟨⟨rfl, _, rfl⟩, ⟨_, rfl, rfl, ?_⟩, ⟨_, rfl, rfl, ?_⟩, s0.withFetchWord 16 0x1200, rfl, rfl, ?_⟩
  · show List.count _ _ = _; decide
  · show List.count _ _ = _; decide
  · show AtSelfJump _; unfold AtSelfJump; decide
/-- A faulted state is no end of a run, not of the empty one and not at a jump to itself (R111). -/
theorem witness_FaultedStateIsNoEnd :
    ¬ SafeRun Config.defaults [] faulted ∧ ¬ GoodRun Config.defaults (fun _ _ => True) [] faulted faulted
    ∧ ¬ AtSelfJump ((s0.withFetchWord 16 0x1200).setFault (some .stackUnderflow)) := by
  refine ⟨?_, ?_, ?_⟩
  · rintro ⟨t, ht, hf⟩; cases ht; cases hf
  · rintro ⟨-, hf, -⟩; cases hf
  · rintro ⟨hf, -⟩; cases hf
theorem witness_OnlyTheListedInstructionsWriteEachPiece :
    answers (exec (.ldB 0) (vAt 0 9 (s0.setI 0x300))) (fun t => t.mem != s0.mem) = true
    ∧ answers (exec (.ldI 0x300) s0) (fun t => t.i != s0.i) = true
    ∧ answers (exec (.call 0x300) s0) (fun t => t.stack != s0.stack && t.sp != s0.sp) = true
    ∧ answers (exec .cls (pAt 0 0 s0)) (fun t => Screen.get t.pix 0 0 != Screen.get (pAt 0 0 s0).pix 0 0) = true
    ∧ answers (exec (.ldDtVx 0) (vAt 0 1 s0)) (fun t => t.dt != s0.dt) = true
    ∧ answers (exec (.ldStVx 0) (vAt 0 1 s0)) (fun t => t.st != s0.st) = true := by
  decide
theorem witness_FlagIsWrittenOnlyBySixInstructions :
    answers (exec (.addReg 0 1) (vAt 0 0xFF (vAt 1 1 s0))) (fun t => t.getV 15 != s0.getV 15) = true := by
  decide
theorem witness_TimersMoveOnlyByTickAndTheirSetters :
    (∃ t, Fetches s1 (.ldByte 1 0x23) ∧ step s1 = .next t) ∧ (∃ t, transact Config.defaults .tick (s0.setDt 1) = .next t)
    ∧ (s0.setDt 1).dt ≠ 0 ∧ (s0.setDt 1).st = 0
    ∧ ∃ t, transact Config.defaults (.keyEvent none true) s0 = .next t := by
  exact ⟨⟨_, ⟨rfl, by decide, rfl⟩, rfl⟩, ⟨_, rfl⟩, by decide, rfl, _, rfl⟩
theorem witness_SoundTimerIsNeverRead :
    (∀ x, Instr.ldVxDt 0 ≠ .ldStVx x) ∧ ∃ t, exec (.ldVxDt 0) s0 = .next t := by
  exact ⟨nofun, _, rfl⟩
theorem witness_ResetLoadsFontAndProgram :
    ([] : List Byte).length ≤ 3584 ∧ (List.replicate 3584 (0xAA : Byte)).length ≤ 3584 := by
  exact ⟨by decide, by rw [List.length_replicate]⟩
theorem witness_ResetPutsTheParameterInTheRest : ∃ t, resetMachine otherParams [0x12] 0 = .next t := ⟨_, rfl⟩
theorem witness_ResetZeroesTheRest :
    (∃ t, resetMachine ⟨Config.font, Config.reset0⟩ [0x12] 0 = .next t)
    ∧ (80 ≤ 80 ∧ 80 < 4096 ∧ (80 < 0x200 ∨ 0x200 + 1 ≤ 80))
    ∧ (80 ≤ 0x1FF ∧ 0x1FF < 4096 ∧ (0x1FF < 0x200 ∨ 0x200 + 1 ≤ 0x1FF))
    ∧ (80 ≤ 0x201 ∧ 0x201 < 4096 ∧ (0x201 < 0x200 ∨ 0x200 + 1 ≤ 0x201)) := by
  exact ⟨⟨_, rfl⟩, by decide, by decide, by decide⟩
theorem witness_TickCountsBothTimersDown : ((s0.setDt 255).setSt 0).fault = none := by decide
theorem witness_TimersAfterTicks : ((s0.setDt 255).setSt 10).fault = none := by decide
theorem witness_KeyEventSetsOneKey :
    s0.fault = none ∧ answers (keyEvent (some 15) true s0) (fun t => t.keyDown 15) = true := by
  decide
theorem witness_ReadsReturnStateAndChangeNothing : s0.fault = none := by decide
theorem witness_SelfJumpChangesNothing :
    AtSelfJump (s0.withFetchWord 16 0x1200) ∧ AtSelfJump ((s0.setPc 0xFFE).withFetchWord 16 0x1FFE) := by
  unfold AtSelfJump; decide
theorem witness_CallPushesTheAdvancedPc :
    (0 : Fin 16).val = s0.sp.toNat ∧ (15 : Fin 16).val = (s0.setSp 15).sp.toNat ∧ (s0.setSp 16).sp.toNat = 16 := by
  decide
theorem witness_ReturnPopsPc :
    (0 : Fin 16).val + 1 = (s0.setSp 1).sp.toNat ∧ (15 : Fin 16).val + 1 = (s0.setSp 16).sp.toNat ∧ s0.sp.toNat = 0 := by
  decide
theorem witness_DepthAboveSixteenIsRefused : 16 < (s0.setSp 17).sp.toNat ∧ 16 < (s0.setSp 255).sp.toNat := by decide
/-- T-SRC-8: `2300` at PC, `00EE` at 0x300. -/
def sCall : State := mAt 0x301 0xEE (s0.withFetchWord 16 0x2300)
theorem witness_CallThenReturnComesBack :
    Fetches sCall (.call 0x300) ∧ (0 : Fin 16).val = sCall.sp.toNat ∧ (0x300 : BitVec 12).toNat < 4095
    ∧ Memory.peek sCall.mem (0x300 : BitVec 12).toNat = 0x00 ∧ Memory.peek sCall.mem ((0x300 : BitVec 12).toNat + 1) = 0xEE := by
  exact ⟨⟨rfl, by decide, rfl⟩, rfl, by decide, by decide, by decide⟩
theorem witness_FlagOfAnArithmeticResult : (0 : Reg) ≠ 15 ∧ (14 : Reg) ≠ 15 := by decide
theorem witness_DecimalDigitsAreStored : (s0.setI 4093).i.toNat ≤ 4093 ∧ 4093 < (s0.setI 4094).i.toNat := by decide
theorem witness_RegistersAreStoredAtI :
    (s0.setI 4080).i.toNat + (15 : Reg).val ≤ 4095 ∧ 4095 < (s0.setI 4081).i.toNat + (15 : Reg).val := by
  decide
theorem witness_RegistersAreLoadedFromI :
    (s0.setI 4095).i.toNat + (0 : Reg).val ≤ 4095 ∧ 4095 < (s0.setI 4096).i.toNat + (0 : Reg).val := by
  decide
theorem witness_StoredRegistersLoadBack : ∃ t, exec (.ldMemVx 15) (s0.setI 4080) = .next t := by exact ⟨_, rfl⟩
theorem witness_MemoryRoundTrip : 0 < 4096 ∧ 4095 < 4096 ∧ 4096 ≤ 4096 := by decide
theorem witness_StoreIsSeenByTheNextFetch :
    1 ≤ (1 : Reg).val ∧ (s0.setI 0x200).i = (s0.setI 0x200).pc ∧ ∃ t, exec (.ldMemVx 1) (s0.setI 0x200) = .next t := by
  exact ⟨by decide, rfl, _, rfl⟩
/-- A state whose sprite byte covers column 0 only. -/
def sDraw : State := mAt 4095 0x80 (s0.setI 4095)
theorem witness_DrawInvertsThePixelsUnderOneBits :
    15 < 16 ∧ 0 < 16 ∧ sDraw.i.toNat + 1 ≤ 4096 ∧ 4096 < sDraw.i.toNat + 2
    ∧ Covered (sDraw.getV 0) (sDraw.getV 1) (spriteBytes sDraw 1) 0 0
    ∧ Screen.get sDraw.pix 0 0 = false ∧ Screen.get (pAt 0 0 sDraw).pix 0 0 = true := by
  
  refine ⟨by decide, by decide, by decide, by decide, ⟨0, 0, 0x80, ?_, ?_⟩, ?_, ?_⟩ <;> decide
/-- The pixel beside it is under a 0 bit: no column of the sprite's one byte reaches it. -/
theorem witness_DrawLeavesThePixelBeside : ¬ Covered (sDraw.getV 0) (sDraw.getV 1) (spriteBytes sDraw 1) 0 1 := by
  have hb : spriteBytes sDraw 1 = [0x80] := by decide
  have hx : (sDraw.getV 0).toNat = 0 := by decide
  rw [hb]
  rintro ⟨row, col, b, hrow, hcol, hbit, -, hc⟩
  rw [hx] at hc
  have hc1 : col = 1 := by
    have h1 : (0 + col) % 64 = 1 := hc
    omega
  subst hc1
  cases row with
  | zero =>
    cases Option.some.inj hrow
    exact absurd hbit (by decide)
  | succ row => cases hrow
theorem witness_DrawingTwiceRestoresTheGrid :
    (List.replicate 15 (0xFF : Byte)).length ≤ 15 ∧ (drawSprite 0 0 [0x80] (drawSprite 0 0 [0x80] Screen.blank).1).2 = true := by
  decide
theorem witness_SkipsOnKey :
    (∃ k : Key, k.val = ((vAt 0 15 (s0.setKey 15 true)).getV 0).toNat ∧ (vAt 0 15 (s0.setKey 15 true)).keyDown k = true)
    ∧ ¬ ∃ k : Key, k.val = ((vAt 0 16 (s0.setKey 0 true)).getV 0).toNat ∧ (vAt 0 16 (s0.setKey 0 true)).keyDown k = true := by
  decide
theorem witness_KeyWaitTakesTheHighestKey :
    ((s0.setKey 3 true).keyDown 3 = true ∧ ∀ j : Key, 3 < j → (s0.setKey 3 true).keyDown j = false)
    ∧ ((s0.setKey 15 true).keyDown 15 = true ∧ ∀ j : Key, 15 < j → (s0.setKey 15 true).keyDown j = false)
    ∧ ∀ k : Key, s0.keyDown k = false := by
  decide
theorem witness_KeyWaitStepChangesNothing :
    Fetches (s0.withFetchWord 16 0xF20A) (.ldVxK 2) ∧ ∀ k : Key, (s0.withFetchWord 16 0xF20A).keyDown k = false := by
  exact ⟨⟨rfl, by decide, rfl⟩, by decide⟩

end Sys2Proof.Tests
end

section
/-! SUPPORT. What an instruction that completes has done to the state, said once (`Effect`, `exec_effect`); the
invariant under each setter; and the proofs of the statements about the state, its invariant and Reset
(spec/10_state.md R20 to R39). -/

namespace Sys2Proof.Machine

/-! What a completed instruction has done. -/

/-- The instructions that write one register, that of their field `x`; Fx0A does so with a key down (R195). -/
inductive WritesOnlyX (x : Reg) : Instr → Prop
  | ldByte (kk : Byte) : WritesOnlyX x (.ldByte x kk)
  | addByte (kk : Byte) : WritesOnlyX x (.addByte x kk)
  | ldReg (y : Reg) : WritesOnlyX x (.ldReg x y)
  | orReg (y : Reg) : WritesOnlyX x (.orReg x y)
  | andReg (y : Reg) : WritesOnlyX x (.andReg x y)
  | xorReg (y : Reg) : WritesOnlyX x (.xorReg x y)
  | ldVxDt : WritesOnlyX x (.ldVxDt x)
  | ldVxK : WritesOnlyX x (.ldVxK x)

/-- The instructions that write VF and then the register of their field `x` (R22, R136). -/
inductive WritesFlagAndX (x : Reg) : Instr → Prop
  | addReg (y : Reg) : WritesFlagAndX x (.addReg x y)
  | sub (y : Reg) : WritesFlagAndX x (.sub x y)
  | shr (y : Reg) : WritesFlagAndX x (.shr x y)
  | subn (y : Reg) : WritesFlagAndX x (.subn x y)
  | shl (y : Reg) : WritesFlagAndX x (.shl x y)

/-- The instructions that write I (R23). -/
inductive WritesIndex : Instr → Prop
  | ldI (nnn : BitVec 12) : WritesIndex (.ldI nnn)
  | addI (x : Reg) : WritesIndex (.addI x)
  | ldF (x : Reg) : WritesIndex (.ldF x)

/-- The instructions that write memory (R68). -/
inductive WritesMemory : Instr → Prop
  | ldB (x : Reg) : WritesMemory (.ldB x)
  | ldMemVx (x : Reg) : WritesMemory (.ldMemVx x)

/-- Where an instruction other than 2nnn and 00EE can leave PC: where the fetch put it, one instruction on (R117) or
back (R195), or at a target, the largest of which is Bnnn's 0xFFF + 0xFF (R24, R125). -/
def PcMove (s : State) (w : Word) : Prop := w = s.pc ∨ w = s.pc + 2 ∨ w = s.pc - 2 ∨ w.toNat ≤ 0x10FE

/-- `Effect s i t`: what the instruction `i`, run on `s`, may have written to answer `t`. -/
inductive Effect (s : State) : Instr → State → Prop
  | movesPc {i w} (h : PcMove s w) : Effect s i (s.setPc w)
  | writesX {i x} (b) (h : WritesOnlyX x i) : Effect s i (s.setV x b)
  | writesFlagAndX {i x} (f b) (h : WritesFlagAndX x i) : Effect s i (setFlagThen s f x b)
  | draws (x kk b) : Effect s (.rnd x kk) (s.drawn.setV x b)
  | clears : Effect s .cls (s.setPix Screen.blank)
  | paints (x y n p b) : Effect s (.drw x y n) ((s.setPix p).setV vF b)
  | pops (h0 : 0 < s.sp.toNat) (h : s.sp.toNat - 1 < 16) :
      Effect s .ret ((s.setSp (s.sp - 1)).setPc s.stack[s.sp.toNat - 1])
  | pushes (nnn) (h : s.sp.toNat < 16) :
      Effect s (.call nnn) (((s.setStack ⟨s.sp.toNat, h⟩ s.pc).setSp (s.sp + 1)).setPc (address nnn))
  | writesIndex {i} (w) (h : WritesIndex i) : Effect s i (s.setI w)
  | writesDt (x b) : Effect s (.ldDtVx x) (s.setDt b)
  | writesSt (x b) : Effect s (.ldStVx x) (s.setSt b)
  | writesMemory {i m} (h : WritesMemory i) (hm : Memory.wf s.mem = true → Memory.wf m = true) :
      Effect s i (s.setMem m)
  | loadsRegs (x v) (h : ∀ q : Reg, x < q → v[q.val] = s.v[q.val]) : Effect s (.ldVxMem x) { s with v := v }

theorem address_toNat (nnn : BitVec 12) : (address nnn).toNat = nnn.toNat := by
  rw [address, BitVec.toNat_ofNat]
  omega

theorem offsetTarget_toNat (nnn : BitVec 12) (b : Byte) : (offsetTarget nnn b).toNat = nnn.toNat + b.toNat := by
  rw [offsetTarget, zext16, BitVec.toNat_add, address_toNat, BitVec.toNat_ofNat]
  omega

theorem pcMove_address (s : State) (nnn : BitVec 12) : PcMove s (address nnn) :=
  .inr (.inr (.inr (by rw [address_toNat]; omega)))

theorem pcMove_offsetTarget (s : State) (nnn : BitVec 12) (b : Byte) : PcMove s (offsetTarget nnn b) :=
  .inr (.inr (.inr (by rw [offsetTarget_toNat]; omega)))

/-- A skip, taken or not, is a move of PC (R117, R121). -/
theorem effect_skipIf (s : State) (c : Bool) (i : Instr) : Effect s i (skipIf c s) := by
  cases c with
  | false => exact .movesPc (w := s.pc) (.inl rfl)
  | true => exact .movesPc (.inr (.inl rfl))

/-- Fx65 loads no register above `x` (R166). -/
theorem execLdVxMem_getV_above {x q : Reg} {s t : State} (h : execLdVxMem x s = .next t) (hq : x < q) :
    t.getV q = s.getV q := by
  by_cases hi : s.i.toNat + 0 + (x.val + 1) ≤ 4096
  · obtain ⟨u, hu, -, hframe⟩ := loadRegs_completes (k := 0) (by omega) hi
    cases hu.symm.trans h
    refine hframe (.v q) ?_
    rintro ⟨j, -, hj, hjq⟩
    cases hjq
    exact absurd hj (by rw [Fin.lt_def] at hq; omega)
  · rw [execLdVxMem, loadRegs_stops (by omega) (by omega) (by omega)] at h
    cases h

theorem andThen_congr {α β : Type} {x y : Result α} (h : x = y) (f : α → Result β) : andThen x f = andThen y f := by
  rw [h]

/-- Every instruction that completes has had an `Effect`; the proofs below go by the effects, not by the meanings. -/
theorem exec_effect {i : Instr} {s t : State} (h : exec i s = .next t) : Effect s i t := by
  cases i with
  | cls => cases h; exact .clears
  | ret =>
    obtain ⟨r, hr, ht⟩ := andThen_next_iff.1 h
    obtain ⟨h0, h16, rfl⟩ := pop_next_iff.1 hr
    cases ht
    exact .pops h0 h16
  | jp nnn => cases h; exact .movesPc (pcMove_address s nnn)
  | call nnn =>
    obtain ⟨u, hu, ht⟩ := andThen_next_iff.1 h
    obtain ⟨h16, rfl⟩ := push_next_iff.1 hu
    cases ht
    exact .pushes nnn h16
  | seByte | sneByte | seReg | sneReg | skp | sknp => cases h; exact effect_skipIf s _ _
  | ldByte x kk => cases h; exact .writesX _ (.ldByte kk)
  | addByte x kk => cases h; exact .writesX _ (.addByte kk)
  | ldReg x y => cases h; exact .writesX _ (.ldReg y)
  | orReg x y => cases h; exact .writesX _ (.orReg y)
  | andReg x y => cases h; exact .writesX _ (.andReg y)
  | xorReg x y => cases h; exact .writesX _ (.xorReg y)
  | addReg x y => cases h; exact .writesFlagAndX _ _ (.addReg y)
  | sub x y => cases h; exact .writesFlagAndX _ _ (.sub y)
  | shr x y => cases h; exact .writesFlagAndX _ _ (.shr y)
  | subn x y => cases h; exact .writesFlagAndX _ _ (.subn y)
  | shl x y => cases h; exact .writesFlagAndX _ _ (.shl y)
  | ldI nnn => cases h; exact .writesIndex _ (.ldI nnn)
  | jpV0 nnn => cases h; exact .movesPc (pcMove_offsetTarget s nnn _)
  | rnd x kk => cases h; exact .draws x kk _
  | drw x y n =>
    obtain ⟨bytes, -, ht⟩ := andThen_next_iff.1 h
    cases ht
    exact .paints x y n _ _
  | ldVxDt x => cases h; exact .writesX _ .ldVxDt
  | ldVxK x =>
    replace h : execLdVxK x s = .next t := h
    unfold execLdVxK at h
    split at h
    · cases h; exact .movesPc (.inr (.inr (.inl rfl)))
    · cases h; exact .writesX _ .ldVxK
  | ldDtVx x => cases h; exact .writesDt x _
  | ldStVx x => cases h; exact .writesSt x _
  | addI x => cases h; exact .writesIndex _ (.addI x)
  | ldF x => cases h; exact .writesIndex _ (.ldF x)
  | ldB x =>
    obtain ⟨m, rfl, hm⟩ := storeBytes_next h
    exact .writesMemory (.ldB x) hm
  | ldMemVx x =>
    obtain ⟨m, rfl, hm⟩ := storeRegs_next h
    exact .writesMemory (.ldMemVx x) hm
  | ldVxMem x =>
    obtain ⟨v, rfl⟩ := loadRegs_next h
    exact .loadsRegs x v fun q hq => execLdVxMem_getV_above h hq

/-! The invariant under each setter: only memory, PC, SP, the slots and the latch matter to it. -/

theorem Inv.setPc {s : State} (h : Inv s) {w : Word} (hw : w.toNat ≤ 0x10FE) : Inv (s.setPc w) := { h with pc := hw }

theorem Inv.setMem {s : State} (h : Inv s) {m : Memory} (hm : Memory.wf m = true) : Inv (s.setMem m) :=
  { h with mem := hm }

theorem Inv.setV {s : State} (h : Inv s) (r : Reg) (b : Byte) : Inv (s.setV r b) := { h with }
theorem Inv.setI {s : State} (h : Inv s) (w : Word) : Inv (s.setI w) := { h with }
theorem Inv.setDt {s : State} (h : Inv s) (b : Byte) : Inv (s.setDt b) := { h with }
theorem Inv.setSt {s : State} (h : Inv s) (b : Byte) : Inv (s.setSt b) := { h with }
theorem Inv.setPix {s : State} (h : Inv s) (p : Screen) : Inv (s.setPix p) := { h with }
theorem Inv.setDraws {s : State} (h : Inv s) (n : Nat) : Inv (s.setDraws n) := { h with }

/-- Popping keeps the slots below the new depth live (R118). -/
theorem Inv.pop {s : State} (h : Inv s) (h0 : 0 < s.sp.toNat) : Inv (s.setSp (s.sp - 1)) := by
  have hsp : (s.sp - 1).toNat = s.sp.toNat - 1 := by bv_omega
  refine { h with sp := ?_, live := fun j hj => h.live j ?_ }
  · rw [setSp_sp, hsp]; have := h.sp; omega
  · rw [setSp_sp, hsp] at hj; omega

/-- Pushing a return address makes one more slot live (R120). -/
theorem Inv.push {s : State} (h : Inv s) (h16 : s.sp.toNat < 16) {a : Word} (h2 : 2 ≤ a.toNat) (ha : a.toNat ≤ 4096) :
    Inv ((s.setStack ⟨s.sp.toNat, h16⟩ a).setSp (s.sp + 1)) := by
  have hsp : (s.sp + 1).toNat = s.sp.toNat + 1 := by bv_omega
  refine { h with sp := ?_, live := fun j hj => ?_ }
  · rw [setSp_sp, hsp]; exact h16
  · rw [setSp_sp, hsp] at hj
    rw [setSp_stack, setStack_slot]
    split
    · exact ⟨h2, ha⟩
    · next hne => exact h.live j (by have := mt (Fin.ext (a := j)) hne; simp only at this; omega)

/-- Fetching leaves PC from 2 to 4096 (R104). -/
theorem pcPlus2_toNat {s : State} (h : s.pc.toNat + 1 < 4096) : s.pcPlus2.pc.toNat = s.pc.toNat + 2 := by
  rw [State.pcPlus2, setPc_pc]
  bv_omega

/-- From a PC that a fetch left, every move of PC stays within 0x10FE. -/
theorem PcMove.toNat_le {s : State} {w : Word} (h : PcMove s w) (h2 : 2 ≤ s.pc.toNat) (hpc : s.pc.toNat ≤ 4096) :
    w.toNat ≤ 0x10FE := by
  rcases h with rfl | rfl | rfl | h
  · omega
  · bv_omega
  · bv_omega
  · exact h

/-- Every instruction keeps the invariant on a state as a fetch leaves it. -/
theorem Effect.keeps_inv {s t : State} {i : Instr} (h : Effect s i t) (hs : Inv s) (h2 : 2 ≤ s.pc.toNat)
    (hpc : s.pc.toNat ≤ 4096) : Inv t := by
  cases h with
  | movesPc h => exact hs.setPc (h.toNat_le h2 hpc)
  | writesX b => exact hs.setV _ b
  | writesFlagAndX f b => exact (hs.setV _ _).setV _ b
  | draws x kk b => exact (hs.setDraws _).setV x b
  | clears => exact hs.setPix _
  | paints x y n p b => exact (hs.setPix p).setV _ b
  | pops h0 h16 =>
    have hslot := hs.live ⟨s.sp.toNat - 1, h16⟩ (by simp only; omega)
    exact (hs.pop h0).setPc (by simp only at hslot; omega)
  | pushes nnn h16 => exact (hs.push h16 h2 hpc).setPc (by rw [address_toNat]; omega)
  | writesIndex w => exact hs.setI w
  | writesDt x b => exact hs.setDt b
  | writesSt x b => exact hs.setSt b
  | writesMemory _ hm => exact hs.setMem (hm hs.mem)
  | loadsRegs x v => exact { hs with }

/-- Settles O13: the fetch leaves PC from 2 to 4096, and from there every effect of an instruction keeps the
invariant. -/
theorem stepKeepsTheInvariant : Obligations.StepKeepsTheInvariant := by
  intro s t hs h
  obtain ⟨-, hfetch, i, -, hexec⟩ := step_next_iff.1 h
  have hpc := pcPlus2_toNat hfetch
  have hinv : Inv s.pcPlus2 := hs.setPc (by rw [State.pcPlus2, setPc_pc] at hpc; omega)
  exact (exec_effect hexec).keeps_inv hinv (by omega) (by omega)

/-! Which instructions write which piece. -/

/-- Settles O17: each effect names the few fields it writes, and the instructions that have it. -/
theorem onlyTheListedInstructionsWriteEachPiece : Obligations.OnlyTheListedInstructionsWriteEachPiece := by
  intro i s t h
  cases exec_effect h with
  | movesPc | writesX | loadsRegs => simp
  | writesFlagAndX => simp [setFlagThen]
  | draws => simp [State.drawn]
  | clears | paints | pops | pushes | writesDt | writesSt => simp
  | writesIndex w hw => cases hw <;> simp
  | writesMemory hm => cases hm <;> simp

/-- Writing one register changes no other. -/
theorem eq_of_setV_getV_ne {s : State} {r q : Reg} {b : Byte} (h : (s.setV r b).getV q ≠ s.getV q) : q = r := by
  by_contra hqr
  exact h (setV_getV_other s b hqr)

/-- Settles O18: an effect that changes VF writes the flag, or names register F as its `x`. -/
theorem flagIsWrittenOnlyBySixInstructions : Obligations.FlagIsWrittenOnlyBySixInstructions := by
  intro i s t h hne
  cases exec_effect h with
  | movesPc | clears | pops | pushes | writesIndex | writesDt | writesSt | writesMemory => exact absurd rfl hne
  | @writesX _ x b hx =>
    obtain rfl := eq_of_setV_getV_ne hne
    cases hx <;> simp
  | writesFlagAndX f b hx => exact .inl (by cases hx <;> simp)
  | draws x kk b =>
    obtain rfl := eq_of_setV_getV_ne (s := s.drawn) hne
    simp
  | paints x y n => exact .inl ⟨x, y, by simp⟩
  | loadsRegs x v hv =>
    have h15 : x = 15 := by
      by_contra hx15
      exact hne (hv 15 (Fin.lt_last_iff_ne_last.2 hx15))
    subst h15
    simp

/-! Timers. -/

/-- A Step that fetches `i` is `i` run with PC advanced (R107). -/
theorem step_of_fetches {s : State} {i : Instr} (h : Fetches s i) : step s = exec i s.pcPlus2 := by
  obtain ⟨hf, hpc, hd⟩ := h
  have hword : decodeWord (wordOf (Memory.peek s.mem s.pc.toNat) (Memory.peek s.mem (s.pc.toNat + 1))) = .ok i := hd
  rw [step, cycle, requireRunning_none _ hf, fetch_completes hpc, andThen_of_next]
  simp only [runWord, hword]

theorem countDown_zero : countDown 0 = 0 := rfl

theorem countDown_toNat_succ {b : Byte} (h : b ≠ 0) : (countDown b).toNat + 1 = b.toNat := by
  rw [countDown, if_neg h]
  bv_omega

/-- Settles O19: a Step by the listing of writers (O17), Tick by what it counts, the rest by inversion. -/
theorem timersMoveOnlyByTickAndTheirSetters : Obligations.TimersMoveOnlyByTickAndTheirSetters := by
  refine ⟨fun s t i hi h => ?_, fun par s t h => ?_, fun par x s t hstep htick hreset h => ?_⟩
  · rw [step_of_fetches hi] at h
    obtain ⟨-, -, -, -, -, -, -, hdt, hst⟩ := onlyTheListedInstructionsWriteEachPiece i _ t h
    refine ⟨fun hi => ?_, fun hi => ?_⟩
    · by_contra hne
      obtain ⟨x, hx⟩ := hdt hne
      exact hi x hx
    · by_contra hne
      obtain ⟨x, hx⟩ := hst hne
      exact hi x hx
  · obtain ⟨-, rfl⟩ := tick_next_iff.1 h
    simp only [setSt_dt, setDt_dt, setSt_st]
    refine ⟨countDown_toNat_succ, fun h0 => ?_, countDown_toNat_succ, fun h0 => ?_⟩ <;> rw [h0, countDown_zero]
  · cases x with
    | reset p => exact absurd rfl (hreset p)
    | step => exact absurd rfl hstep
    | tick => exact absurd rfl htick
    | keyEvent k down =>
      obtain ⟨-, ⟨-, rfl⟩ | ⟨j, -, rfl⟩⟩ := keyEvent_next_iff.1 h <;> exact ⟨rfl, rfl⟩
    | readScreen | readDt | readSt =>
      obtain ⟨a, -, ha⟩ := andThen_next_iff.1 h
      cases ha
      exact ⟨rfl, rfl⟩

/-! A depth without a slot. -/

theorem push_of_gt {a : Word} {s : State} (h : 16 < s.sp.toNat) : push a s = .refused (.depthOutOfRange s.sp) := by
  have hne : s.sp ≠ 16 := fun he => absurd (he ▸ h) (by decide)
  rw [push, if_neg hne, dif_neg (Nat.not_lt.2 h.le)]

theorem pop_of_gt {s : State} (h : 16 < s.sp.toNat) : pop s = .refused (.depthOutOfRange s.sp) := by
  have hne : s.sp ≠ 0 := fun he => absurd (he ▸ h) (by decide)
  rw [pop, if_neg hne, dif_neg (by simp only [Config.stackSlots]; omega)]

/-! The sound timer is never read (R27): every operation commutes with setting it. -/

/-- The outcome `x`, with ST set to `b` in the state it answers. -/
def withSt (b : Byte) (x : Result State) : Result State := andThen x fun t => .next (t.setSt b)

/-- `f` neither reads nor writes ST: setting it before is setting it after. -/
def IgnoresSt (f : State → Result State) : Prop := ∀ b s, f (s.setSt b) = withSt b (f s)

/-- A computation goes on with ST set if each of its answers does. -/
theorem andThen_withSt {α : Type} {b : Byte} (x : Result α) {f g : α → Result State} (h : ∀ a, f a = withSt b (g a)) :
    andThen x f = withSt b (andThen x g) := by
  rw [withSt, andThen_assoc]
  exact congrArg (andThen x) (funext h)

theorem withSt_andThen {b : Byte} (x : Result State) {f : State → Result State} (h : IgnoresSt f) :
    andThen (withSt b x) f = withSt b (andThen x f) := by
  rw [withSt, andThen_assoc]
  exact andThen_withSt x fun t => h b t

theorem memWrite_ignoresSt (a : Nat) (v : Byte) : IgnoresSt (memWrite a v) := by
  intro b s
  by_cases ha : a < 4096
  · rw [memWrite_of_lt v _ ha, memWrite_of_lt v s ha]; rfl
  · rw [memWrite_of_ge v _ (by omega), memWrite_of_ge v s (by omega)]; rfl

theorem writeReg_ignoresSt (k : Nat) (v : Byte) : IgnoresSt (writeReg k v) := by
  intro b s
  unfold writeReg
  split <;> rfl

theorem storeBytes_ignoresSt (a : Nat) (bs : List Byte) : IgnoresSt (storeBytes a bs) := by
  induction bs generalizing a with
  | nil => exact fun b s => rfl
  | cons v bs ih =>
    intro b s
    rw [storeBytes, storeBytes, memWrite_ignoresSt a v b s]
    exact withSt_andThen _ (ih (a + 1))

theorem storeRegs_ignoresSt (k count : Nat) : IgnoresSt (storeRegs k count) := by
  induction count generalizing k with
  | zero => exact fun b s => rfl
  | succ count ih =>
    intro b s
    refine andThen_withSt (readReg s k) fun v => ?_
    rw [← withSt_andThen _ (ih (k + 1)), ← memWrite_ignoresSt]
    rfl

theorem loadRegs_ignoresSt (k count : Nat) : IgnoresSt (loadRegs k count) := by
  induction count generalizing k with
  | zero => exact fun b s => rfl
  | succ count ih =>
    intro b s
    refine andThen_withSt (memRead (blockAddress s k) s) fun v => ?_
    rw [← withSt_andThen _ (ih (k + 1)), ← writeReg_ignoresSt]

theorem push_ignoresSt (a : Word) : IgnoresSt (push a) := by
  intro b s
  by_cases hfull : s.sp = 16
  · rw [push_of_full hfull, push_of_full (s := s.setSt b) hfull]; rfl
  · by_cases h : s.sp.toNat < 16
    · rw [push_of_lt h, push_of_lt (s := s.setSt b) h]; rfl
    · have hgt : 16 < s.sp.toNat := by bv_omega
      rw [push_of_gt hgt, push_of_gt (s := s.setSt b) hgt]; rfl

/-- Pop answers a word beside the state; 00EE takes both, and ignores ST. -/
theorem execRet_ignoresSt : IgnoresSt execRet := by
  intro b s
  unfold execRet
  by_cases h0 : s.sp = 0
  · rw [pop_of_empty h0, pop_of_empty (s := s.setSt b) h0]; rfl
  · by_cases h : s.sp.toNat ≤ 16
    · have hpos : 0 < s.sp.toNat := by bv_omega
      rw [pop_of_pos hpos (by omega), pop_of_pos (s := s.setSt b) hpos (by rw [setSt_sp]; omega)]; rfl
    · rw [pop_of_gt (Nat.not_le.1 h), pop_of_gt (s := s.setSt b) (Nat.not_le.1 h)]; rfl

theorem skipIf_setSt (c : Bool) (s : State) (b : Byte) : skipIf c (s.setSt b) = (skipIf c s).setSt b := by
  cases c <;> rfl

theorem scanFrom_setSt (s : State) (b : Byte) (ks : List Key) (found : Option Key) :
    scanFrom (s.setSt b) ks found = scanFrom s ks found := by
  induction ks generalizing found with
  | nil => rfl
  | cons k ks ih => exact ih _

theorem execLdVxK_ignoresSt (x : Reg) : IgnoresSt (execLdVxK x) := by
  intro b s
  have hscan : scanKeys (s.setSt b) = scanKeys s := scanFrom_setSt s b allKeys none
  unfold execLdVxK
  rw [hscan]
  split <;> rfl

/-- Every instruction but Fx18 ignores ST (R27, R199). -/
theorem exec_ignoresSt {i : Instr} (hi : ∀ x, i ≠ .ldStVx x) : IgnoresSt (exec i) := by
  intro b s
  cases i with
  | ldStVx x => exact absurd rfl (hi x)
  | ret => exact execRet_ignoresSt b s
  | call nnn =>
    have hpush : push s.pc (s.setSt b) = withSt b (push s.pc s) := push_ignoresSt s.pc b s
    exact (andThen_congr hpush _).trans (withSt_andThen _ fun b s => rfl)
  | seByte | sneByte | seReg | sneReg | skp | sknp => exact congrArg _ (skipIf_setSt _ s b)
  | drw x y n => exact andThen_withSt (memReadRange (blockAddress s 0) n s) fun bytes => rfl
  | ldVxK x => exact execLdVxK_ignoresSt x b s
  | ldB x => exact storeBytes_ignoresSt _ _ b s
  | ldMemVx x => exact storeRegs_ignoresSt _ _ b s
  | ldVxMem x => exact loadRegs_ignoresSt _ _ b s
  | cls | jp | ldByte | addByte | ldReg | orReg | andReg | xorReg | addReg | sub | shr | subn | shl | ldI | jpV0
  | rnd | ldVxDt | ldDtVx | addI | ldF => rfl

/-- Settles O20: an instruction that ignores ST answers the same state but for ST. -/
theorem soundTimerIsNeverRead : Obligations.SoundTimerIsNeverRead := by
  intro i s t b hi h
  rw [exec_ignoresSt hi b s, h]
  rfl

/-! Reset. -/

/-- Settles O21: the fresh state's fields, and memory area by area. -/
theorem resetLoadsFontAndProgram : Obligations.ResetLoadsFontAndProgram := by
  intro par program d hlen
  obtain ⟨t, h⟩ : ∃ t, resetMachine par program d = .next t := ⟨_, resetMachine_next_iff.2 ⟨hlen, rfl⟩⟩
  obtain ⟨-, rfl⟩ := resetMachine_next_iff.1 h
  refine ⟨_, h, rfl, fun j => ?_, fun j hj => ?_, fun r c => get_blank r c⟩
  · rw [resetMachine_peek h (by omega), resetContents_font par program j.isLt]
  · rw [resetMachine_peek h (by omega), resetContents_program par program hj]

/-- Settles O10: every other transaction requires FAULT = none, and Reset reads nothing of the state. -/
theorem faultedStateAllowsOnlyReset : Obligations.FaultedStateAllowsOnlyReset := by
  intro par s f hf
  refine ⟨fun t ht => ?_, fun p hp => ⟨_, resetMachine_next_iff.2 ⟨hp, rfl⟩, rfl⟩⟩
  cases t with
  | reset p => exact absurd rfl (ht p)
  | step | tick | keyEvent => exact requireRunning_some _ hf
  | readScreen | readDt | readSt => exact andThen_congr (requireRunning_some _ hf) _

/-- A Reset that completes meets the invariant, whatever FONT, RESET0 and program (R240). -/
theorem resetMachine_inv {par : Config.Params} {program : List Byte} {draws : Nat} {t : State}
    (h : resetMachine par program draws = .next t) : Inv t := by
  obtain ⟨-, rfl⟩ := resetMachine_next_iff.1 h
  exact
    { mem := by rw [setDraws_mem, fresh_mem, wf_ofContents]
      sp := by simp
      pc := by simp
      live := fun j hj => absurd hj (Nat.not_lt_zero _)
      running := rfl }

/-- Settles O15: `State.reset` is what a Reset leaves. -/
theorem resetMeetsTheInvariant : Obligations.ResetMeetsTheInvariant :=
  resetMachine_inv resetMachine_defaults

/-- Settles O22: the fresh state's fields, and memory outside the two loaded areas. -/
theorem resetPutsTheParameterInTheRest : Obligations.ResetPutsTheParameterInTheRest := by
  intro par program d t h
  have hmem : ∀ a, 80 ≤ a → a < 4096 → (a < 0x200 ∨ 0x200 + program.length ≤ a) →
      Memory.peek t.mem a = par.reset0.mem a := fun a h80 ha hout => by
    rw [resetMachine_peek h ha, resetContents_rest par program h80 hout]
  obtain ⟨-, rfl⟩ := resetMachine_next_iff.1 h
  exact ⟨rfl, rfl, rfl, rfl, rfl, rfl, rfl, rfl, hmem⟩

/-- Settles O23: O22 at the parameter that is 0 everywhere. -/
theorem resetZeroesTheRest : Obligations.ResetZeroesTheRest := by
  intro font program d t h
  obtain ⟨hv, hi, hdt, hst, hstack, hkey, hsp, hfault, hmem⟩ := resetPutsTheParameterInTheRest _ program d t h
  refine ⟨fun r => ?_, hi, hsp, hdt, hst, fun j => ?_, fun k => ?_, hfault, hmem⟩
  · rw [State.getV, hv]; exact Vector.getElem_replicate r.isLt
  · rw [hstack]; exact Vector.getElem_replicate j.isLt
  · rw [State.keyDown, hkey]; exact Vector.getElem_replicate k.isLt

/-- Settles O32: neither Push nor Pop has a slot above depth 16. -/
theorem depthAboveSixteenIsRefused : Obligations.DepthAboveSixteenIsRefused := by
  intro nnn s h
  exact ⟨andThen_congr (push_of_gt h) _, andThen_congr (pop_of_gt h) _⟩

end Sys2Proof.Machine
end

section
/-! SUPPORT. What a Fx55 that completes has stored (`storeRegs_of_exec_ldMemVx`), and the proofs of the statements about
memory (spec/20_memory.md R52, R53, R65). -/

namespace Sys2Proof.Machine

/-- Settles O51: the two sides of the bound 4096 for each access; below it, the write pokes one cell. -/
theorem memoryRoundTrip : Obligations.MemoryRoundTrip := by
  intro a b s
  refine ⟨fun ha => ⟨memRead_of_lt s ha, _, memWrite_of_lt b s ha, ?_, changesOnly_poke s a b⟩,
    fun ha => ⟨memRead_of_ge s ha, memWrite_of_ge b s ha⟩⟩
  rw [memRead_of_lt _ ha, setMem_mem, peek_poke_same]

/-- A Fx55 that completes stayed inside memory, and left V0 to Vx at I and everything else as it was (R165). -/
theorem storeRegs_of_exec_ldMemVx {x : Reg} {s t : State} (h : exec (.ldMemVx x) s = .next t) :
    s.i.toNat + x.val < 4096
      ∧ (∀ r : Reg, r ≤ x → Memory.peek t.mem (s.i.toNat + r.val) = s.getV r)
      ∧ ChangesOnly (fun p => ∃ j, j ≤ x.val ∧ p = .mem (s.i.toNat + j)) s t := by
  have hstore : storeRegs 0 (x.val + 1) s = .next t := h
  have hk : 0 + (x.val + 1) ≤ 16 := by omega
  have hlt : s.i.toNat + x.val < 4096 := by
    by_contra hge
    rw [storeRegs_stops (Nat.succ_pos _) hk (by omega)] at hstore
    cases hstore
  obtain ⟨u, hu, hstored, honly⟩ := storeRegs_completes (s := s) hk (by omega)
  cases hu.symm.trans hstore
  refine ⟨hlt, fun r hr => hstored r (Nat.zero_le _) (by rw [Fin.le_def] at hr; omega), honly.mono ?_⟩
  rintro p ⟨j, -, hj, rfl⟩
  exact ⟨j, by omega, rfl⟩

/-- Settles O52: PC is where it was, so the next fetch reads the cells that hold V0 and V1. -/
theorem storeIsSeenByTheNextFetch : Obligations.StoreIsSeenByTheNextFetch := by
  intro x s t hx hi h
  obtain ⟨hlt, hstored, honly⟩ := storeRegs_of_exec_ldMemVx h
  rw [hi] at hlt hstored
  have hpc : t.pc = s.pc := honly .pc (by simp)
  have h0 : Memory.peek t.mem t.pc.toNat = s.getV 0 := hpc ▸ hstored 0 (Fin.zero_le x)
  have h1 : Memory.peek t.mem (t.pc.toNat + 1) = s.getV 1 := hpc ▸ hstored 1 hx
  refine ⟨_, _, fetch_completes (by rw [hpc]; omega), ?_⟩
  rw [wordOf_toNat, h0, h1]

end Sys2Proof.Machine
end

section
/-! SUPPORT. The two directions between words and instructions, format by format (`decodeWord_encodeWord`,
`opcodeRows_reencode`), the words no row selects (`unselected_iff_reserved`), and the proofs of the
statements about the encoding (spec/30_encoding.md R75 to R88) and of what a Step does with a reserved word. -/

namespace Sys2Proof

/-! What the decoder answers, by the search through the rows (R79, R82). -/

theorem decodeWord_ok_iff {op : Word} {i : Instr} : decodeWord op = .ok i ↔ selectRow opcodeRows op = some i := by
  unfold decodeWord
  split <;> simp [*]

theorem decodeWord_reserved_iff {op : Word} :
    decodeWord op = .error (.reserved op) ↔ ∀ r ∈ opcodeRows, r.selects op = false := by
  rw [← selectRow_none_iff, decodeWord]
  split <;> simp [*]

theorem decodeWord_of_selects {r : Row} {op : Word} {i : Instr} (hr : r ∈ opcodeRows) (h : r.selects op = true)
    (hi : r.build op = i) : decodeWord op = .ok i :=
  decodeWord_ok_iff.2 (hi ▸ selectRow_of_mem opcodeRows_disjoint hr h)

/-- The bytes of a word decode as the word does, and leave what follows them (R56, R75). -/
theorem decode_bytesOf {op : Word} {i : Instr} (h : decodeWord op = .ok i) (rest : List Byte) :
    decode (bytesOf op ++ rest) = .ok (i, rest) := by
  simp [bytesOf, decode, h]

/-! A field read back from the digits of a word (R76). -/

theorem fieldX_eq {op : Word} {x : Reg} (h : op.toNat / 256 % 16 = x.val) : fieldX op = x := Fin.ext h

theorem fieldY_eq {op : Word} {y : Reg} (h : op.toNat / 16 % 16 = y.val) : fieldY op = y := Fin.ext h

theorem fieldKk_eq {op : Word} {kk : Byte} (h : op.toNat % 256 = kk.toNat) : fieldKk op = kk :=
  BitVec.eq_of_toNat_eq ((fieldKk_toNat op).trans h)

theorem fieldNnn_eq {op : Word} {nnn : BitVec 12} (h : op.toNat % 4096 = nnn.toNat) : fieldNnn op = nnn :=
  BitVec.eq_of_toNat_eq ((fieldNnn_toNat op).trans h)

/-! Decoding what the encoder of a format writes: the row selects the word, and each field reads back (R77, R88). -/

section
variable {m : Word}

theorem decodeWord_encA {b : BitVec 12 → Instr}
    (hr : ⟨0xF000, m, fun op => b (fieldNnn op)⟩ ∈ opcodeRows) (hm : m.toNat % 4096 = 0) (nnn : BitVec 12) :
    decodeWord (encA m nnn) = .ok (b nnn) := by
  have hw := encA_toNat m nnn hm
  have hnnn : fieldNnn (encA m nnn) = nnn := fieldNnn_eq (by omega)
  exact decodeWord_of_selects hr (by rw [selects_maskF000, decide_eq_true_iff]; omega) (by simp only [hnnn])

theorem decodeWord_encXK {b : Reg → Byte → Instr}
    (hr : ⟨0xF000, m, fun op => b (fieldX op) (fieldKk op)⟩ ∈ opcodeRows) (hm : m.toNat % 4096 = 0)
    (x : Reg) (kk : Byte) : decodeWord (encXK m x kk) = .ok (b x kk) := by
  have hw := encXK_toNat m x kk hm
  have hx : fieldX (encXK m x kk) = x := fieldX_eq (by omega)
  have hkk : fieldKk (encXK m x kk) = kk := fieldKk_eq (by omega)
  exact decodeWord_of_selects hr (by rw [selects_maskF000, decide_eq_true_iff]; omega) (by simp only [hx, hkk])

theorem decodeWord_encXYN {b : Reg → Reg → Nat → Instr}
    (hr : ⟨0xF000, m, fun op => b (fieldX op) (fieldY op) (fieldN op)⟩ ∈ opcodeRows) (hm : m.toNat % 4096 = 0)
    (x y : Reg) {n : Nat} (hn : n < 16) : decodeWord (encXYN m x y n) = .ok (b x y n) := by
  have hw := encXYN_toNat m x y n hm hn
  have hx : fieldX (encXYN m x y n) = x := fieldX_eq (by omega)
  have hy : fieldY (encXYN m x y n) = y := fieldY_eq (by omega)
  have hfieldN : fieldN (encXYN m x y n) = n := by rw [fieldN_eq]; omega
  exact decodeWord_of_selects hr (by rw [selects_maskF000, decide_eq_true_iff]; omega) (by simp only [hx, hy, hfieldN])

theorem decodeWord_encXY {b : Reg → Reg → Instr}
    (hr : ⟨0xF00F, m, fun op => b (fieldX op) (fieldY op)⟩ ∈ opcodeRows) (hm : m.toNat % 4096 < 16)
    (x y : Reg) : decodeWord (encXY m x y) = .ok (b x y) := by
  have hw := encXY_toNat m x y (by omega) (by omega)
  have hx : fieldX (encXY m x y) = x := fieldX_eq (by omega)
  have hy : fieldY (encXY m x y) = y := fieldY_eq (by omega)
  exact decodeWord_of_selects hr (by rw [selects_maskF00F, decide_eq_true_iff]; omega) (by simp only [hx, hy])

theorem decodeWord_encXS {b : Reg → Instr}
    (hr : ⟨0xF0FF, m, fun op => b (fieldX op)⟩ ∈ opcodeRows) (hm : m.toNat % 4096 < 256) (x : Reg) :
    decodeWord (encXS m x) = .ok (b x) := by
  have hw := encXS_toNat m x (by omega)
  have hx : fieldX (encXS m x) = x := fieldX_eq (by omega)
  exact decodeWord_of_selects hr (by rw [selects_maskF0FF, decide_eq_true_iff]; omega) (by simp only [hx])

end

/-- The word of a well-formed instruction decodes to it, by the format of its row (R77, R79, R88). -/
theorem decodeWord_encodeWord {i : Instr} (h : i.wf = true) : decodeWord (encodeWord i) = .ok i := by
  cases i with
  | cls | ret => rfl
  | jp nnn | call nnn | ldI nnn | jpV0 nnn =>
    exact decodeWord_encA (by simp [opcodeRows, rowsFlow, rowsMid]) (by decide) nnn
  | seByte x kk | sneByte x kk | ldByte x kk | addByte x kk | rnd x kk =>
    exact decodeWord_encXK (by simp [opcodeRows, rowsFlow, rowsMid]) (by decide) x kk
  | seReg x y | ldReg x y | orReg x y | andReg x y | xorReg x y | addReg x y | sub x y | shr x y | subn x y | shl x y
  | sneReg x y => exact decodeWord_encXY (by simp [opcodeRows, rowsFlow, rowsAlu]) (by decide) x y
  | drw x y n => exact decodeWord_encXYN (by simp [opcodeRows, rowsMid]) (by decide) x y (of_decide_eq_true h)
  | skp x | sknp x | ldVxDt x | ldVxK x | ldDtVx x | ldStVx x | addI x | ldF x | ldB x | ldMemVx x | ldVxMem x =>
    exact decodeWord_encXS (by simp [opcodeRows, rowsMid, rowsF]) (by decide) x

/-! Encoding what a row builds: the bits its mask fixes and the fields make up the whole word (R76, R77, R81). -/

/-- The row builds, from each word it selects, a well-formed instruction that encodes to that word. -/
def Row.Reencodes (r : Row) : Prop :=
  ∀ op, r.selects op = true → encodeWord (r.build op) = op ∧ (r.build op).wf = true

section
variable {m : Word}

theorem Row.Reencodes.of_fixed {i : Instr} (hi : encodeWord i = m ∧ i.wf = true) :
    Row.Reencodes ⟨0xFFFF, m, fun _ => i⟩ := by
  intro op h
  rw [selects_maskFFFF, decide_eq_true_iff] at h
  exact ⟨hi.1.trans (BitVec.eq_of_toNat_eq h.symm), hi.2⟩

theorem Row.Reencodes.of_formatA {b : BitVec 12 → Instr} (hm : m.toNat % 4096 = 0)
    (hb : ∀ nnn, encodeWord (b nnn) = encA m nnn ∧ (b nnn).wf = true) :
    Row.Reencodes ⟨0xF000, m, fun op => b (fieldNnn op)⟩ := by
  intro op h
  rw [selects_maskF000, decide_eq_true_iff] at h
  refine ⟨(hb _).1.trans (BitVec.eq_of_toNat_eq ?_), (hb _).2⟩
  rw [encA_toNat m _ hm, fieldNnn_toNat]
  omega

theorem Row.Reencodes.of_formatXK {b : Reg → Byte → Instr} (hm : m.toNat % 4096 = 0)
    (hb : ∀ x kk, encodeWord (b x kk) = encXK m x kk ∧ (b x kk).wf = true) :
    Row.Reencodes ⟨0xF000, m, fun op => b (fieldX op) (fieldKk op)⟩ := by
  intro op h
  rw [selects_maskF000, decide_eq_true_iff] at h
  refine ⟨(hb _ _).1.trans (BitVec.eq_of_toNat_eq ?_), (hb _ _).2⟩
  rw [encXK_toNat m _ _ hm, fieldX_val, fieldKk_toNat]
  omega

theorem Row.Reencodes.of_formatXYN {b : Reg → Reg → Nat → Instr} (hm : m.toNat % 4096 = 0)
    (hb : ∀ x y n, n < 16 → encodeWord (b x y n) = encXYN m x y n ∧ (b x y n).wf = true) :
    Row.Reencodes ⟨0xF000, m, fun op => b (fieldX op) (fieldY op) (fieldN op)⟩ := by
  intro op h
  rw [selects_maskF000, decide_eq_true_iff] at h
  have hn : fieldN op < 16 := by rw [fieldN_eq]; omega
  refine ⟨(hb _ _ _ hn).1.trans (BitVec.eq_of_toNat_eq ?_), (hb _ _ _ hn).2⟩
  rw [encXYN_toNat m _ _ _ hm hn, fieldX_val, fieldY_val, fieldN_eq]
  omega

theorem Row.Reencodes.of_formatXY {b : Reg → Reg → Instr} (hm : m.toNat % 4096 < 16)
    (hb : ∀ x y, encodeWord (b x y) = encXY m x y ∧ (b x y).wf = true) :
    Row.Reencodes ⟨0xF00F, m, fun op => b (fieldX op) (fieldY op)⟩ := by
  intro op h
  rw [selects_maskF00F, decide_eq_true_iff] at h
  refine ⟨(hb _ _).1.trans (BitVec.eq_of_toNat_eq ?_), (hb _ _).2⟩
  rw [encXY_toNat m _ _ (by omega) (by omega), fieldX_val, fieldY_val]
  omega

theorem Row.Reencodes.of_formatXS {b : Reg → Instr} (hm : m.toNat % 4096 < 256)
    (hb : ∀ x, encodeWord (b x) = encXS m x ∧ (b x).wf = true) :
    Row.Reencodes ⟨0xF0FF, m, fun op => b (fieldX op)⟩ := by
  intro op h
  rw [selects_maskF0FF, decide_eq_true_iff] at h
  refine ⟨(hb _).1.trans (BitVec.eq_of_toNat_eq ?_), (hb _).2⟩
  rw [encXS_toNat m _ (by omega), fieldX_val]
  omega

end

/-- The rows of each group, in the document's order, by their formats (R80). -/
theorem rowsFlow_reencode : ∀ r ∈ rowsFlow, r.Reencodes := by
  simp only [rowsFlow, List.forall_mem_cons, List.not_mem_nil, false_implies, implies_true, and_true]
  exact ⟨.of_fixed ⟨rfl, rfl⟩, .of_fixed ⟨rfl, rfl⟩,
    .of_formatA (by decide) fun _ => ⟨rfl, rfl⟩, .of_formatA (by decide) fun _ => ⟨rfl, rfl⟩,
    .of_formatXK (by decide) fun _ _ => ⟨rfl, rfl⟩, .of_formatXK (by decide) fun _ _ => ⟨rfl, rfl⟩,
    .of_formatXY (by decide) fun _ _ => ⟨rfl, rfl⟩,
    .of_formatXK (by decide) fun _ _ => ⟨rfl, rfl⟩, .of_formatXK (by decide) fun _ _ => ⟨rfl, rfl⟩⟩

theorem rowsAlu_reencode : ∀ r ∈ rowsAlu, r.Reencodes := by
  simp only [rowsAlu, List.forall_mem_cons, List.not_mem_nil, false_implies, implies_true, and_true]
  and_intros <;> exact Row.Reencodes.of_formatXY (by decide) fun _ _ => ⟨rfl, rfl⟩

theorem rowsMid_reencode : ∀ r ∈ rowsMid, r.Reencodes := by
  simp only [rowsMid, List.forall_mem_cons, List.not_mem_nil, false_implies, implies_true, and_true]
  exact ⟨.of_formatA (by decide) fun _ => ⟨rfl, rfl⟩, .of_formatA (by decide) fun _ => ⟨rfl, rfl⟩,
    .of_formatXK (by decide) fun _ _ => ⟨rfl, rfl⟩,
    .of_formatXYN (by decide) fun _ _ _ hn => ⟨rfl, decide_eq_true hn⟩,
    .of_formatXS (by decide) fun _ => ⟨rfl, rfl⟩, .of_formatXS (by decide) fun _ => ⟨rfl, rfl⟩⟩

theorem rowsF_reencode : ∀ r ∈ rowsF, r.Reencodes := by
  simp only [rowsF, List.forall_mem_cons, List.not_mem_nil, false_implies, implies_true, and_true]
  and_intros <;> exact Row.Reencodes.of_formatXS (by decide) fun _ => ⟨rfl, rfl⟩

theorem opcodeRows_reencode : ∀ r ∈ opcodeRows, r.Reencodes := by
  simp only [opcodeRows, List.forall_mem_append]
  exact ⟨⟨⟨rowsFlow_reencode, rowsAlu_reencode⟩, rowsMid_reencode⟩, rowsF_reencode⟩

/-! The words no row selects, by their first digit (R80, R82). -/

theorem rowsFlow_unselected {op : Word} : (∀ r ∈ rowsFlow, r.selects op = false) ↔
    (op.toNat / 4096 = 0 → op.toNat ≠ 0x00E0 ∧ op.toNat ≠ 0x00EE) ∧ op.toNat / 4096 ∉ [1, 2, 3, 4, 6, 7]
      ∧ (op.toNat / 4096 = 5 → op.toNat % 16 ≠ 0) := by
  simp only [rowsFlow, List.forall_mem_cons, List.not_mem_nil, false_implies, implies_true, and_true,
    decide_eq_false_iff_not, selects_maskFFFF, selects_maskF000, selects_maskF00F]
  simp only [List.mem_cons, List.not_mem_nil, or_false, BitVec.reduceToNat]
  omega

theorem rowsAlu_unselected {op : Word} : (∀ r ∈ rowsAlu, r.selects op = false) ↔
    (op.toNat / 4096 = 8 → op.toNat % 16 ∈ [0x8, 0x9, 0xA, 0xB, 0xC, 0xD, 0xF])
      ∧ (op.toNat / 4096 = 9 → op.toNat % 16 ≠ 0) := by
  simp only [rowsAlu, List.forall_mem_cons, List.not_mem_nil, false_implies, implies_true, and_true,
    decide_eq_false_iff_not, selects_maskF00F]
  simp only [List.mem_cons, List.not_mem_nil, or_false, BitVec.reduceToNat]
  omega

theorem rowsMid_unselected {op : Word} : (∀ r ∈ rowsMid, r.selects op = false) ↔
    op.toNat / 4096 ∉ [0xA, 0xB, 0xC, 0xD]
      ∧ (op.toNat / 4096 = 0xE → op.toNat % 256 ≠ 0x9E ∧ op.toNat % 256 ≠ 0xA1) := by
  simp only [rowsMid, List.forall_mem_cons, List.not_mem_nil, false_implies, implies_true, and_true,
    decide_eq_false_iff_not, selects_maskF000, selects_maskF0FF]
  simp only [List.mem_cons, List.not_mem_nil, or_false, BitVec.reduceToNat]
  omega

theorem rowsF_unselected {op : Word} : (∀ r ∈ rowsF, r.selects op = false) ↔
    (op.toNat / 4096 = 0xF → op.toNat % 256 ∉ [0x07, 0x0A, 0x15, 0x18, 0x1E, 0x29, 0x33, 0x55, 0x65]) := by
  simp only [rowsF, List.forall_mem_cons, List.not_mem_nil, false_implies, implies_true, and_true,
    decide_eq_false_iff_not, selects_maskF0FF]
  simp only [List.mem_cons, List.not_mem_nil, or_false, BitVec.reduceToNat]
  omega

end Sys2Proof

namespace Sys2Proof.Machine

/-- The words no row selects are those of R82's table: under each first digit the two say the same. -/
theorem unselected_iff_reserved {op : Word} :
    (∀ r ∈ opcodeRows, r.selects op = false) ↔ ReservedWord op.toNat := by
  simp only [opcodeRows, List.forall_mem_append, rowsFlow_unselected, rowsAlu_unselected, rowsMid_unselected,
    rowsF_unselected, ReservedWord]
  have hd : op.toNat / 4096 < 16 := by omega
  generalize op.toNat / 4096 = d at hd
  interval_cases d <;> simp

/-! The statements about encoding. -/

/-- Settles O2: the word of the instruction decodes to it, and its two bytes decode as the word. -/
theorem decodeOfEncodeIsTheInstruction : Obligations.DecodeOfEncodeIsTheInstruction := by
  intro i rest h
  exact decode_bytesOf (decodeWord_encodeWord h) rest

/-- Settles O3: the word was decoded by some row, and every row re-encodes. -/
theorem decodedWordReencodes : Obligations.DecodedWordReencodes := by
  intro op i h
  obtain ⟨r, hr, hselects, rfl⟩ := selectRow_some (decodeWord_ok_iff.1 h)
  exact opcodeRows_reencode r hr op hselects

/-- Settles O4: a reserved word is one no row selects; any other is selected, so it decodes. -/
theorem reservedWordsAreTheListedOnes : Obligations.ReservedWordsAreTheListedOnes := by
  intro op
  have hiff : ReservedWord op.toNat ↔ decodeWord op = .error (.reserved op) :=
    unselected_iff_reserved.symm.trans decodeWord_reserved_iff.symm
  refine ⟨hiff, fun hnot => ?_⟩
  cases hsel : selectRow opcodeRows op with
  | some i => exact ⟨i, decodeWord_ok_iff.2 hsel⟩
  | none => exact absurd (unselected_iff_reserved.1 (selectRow_none_iff.1 hsel)) hnot

/-- Settles O1: the decoder run on the eight words. -/
theorem sampleWordsDecode : Obligations.SampleWordsDecode :=
  ⟨rfl, rfl, rfl, rfl, rfl, rfl, rfl, rfl⟩

/-! A Step on the word it fetches. -/

/-- A Step that fetches two bytes runs their word with PC advanced (R104 to R107). -/
theorem step_eq_runWord {s : State} (hrunning : s.fault = none) (hpc : s.pc.toNat + 1 < 4096) :
    step s = runWord (wordOf (Memory.peek s.mem s.pc.toNat) (Memory.peek s.mem (s.pc.toNat + 1))) s.pcPlus2 := by
  rw [step, cycle, requireRunning_none _ hrunning, fetch_completes hpc, andThen_of_next]

/-- A word that decodes to nothing is refused by name, whatever the state (R82, R214). -/
theorem runWord_of_error {op : Word} {e : DecodeError} (h : decodeWord op = .error e) (s : State) :
    runWord op s = .refused (.illegalInstruction op) := by
  simp only [runWord, h, raise_illegalInstruction]

/-- Settles O7: the fetch answers the word, and decoding it fails (O4). -/
theorem reservedWordIsIllegalInstruction : Obligations.ReservedWordIsIllegalInstruction := by
  intro s op hrunning hpc hop hreserved
  have hword : wordOf (Memory.peek s.mem s.pc.toNat) (Memory.peek s.mem (s.pc.toNat + 1)) = op :=
    BitVec.eq_of_toNat_eq ((wordOf_toNat _ _).trans hop.symm)
  have hdecode : decodeWord op = .error (.reserved op) := (reservedWordsAreTheListedOnes op).1.1 hreserved
  have hstep : step s = .refused (.illegalInstruction op) := by
    rw [step_eq_runWord hrunning (by omega), hword, runWord_of_error hdecode]
  exact ⟨hstep, by rw [hstep]; rfl⟩

end Sys2Proof.Machine
end

section
/-! SUPPORT. Where the fetch stops, what each transaction that completes keeps (`transact_keeps_inv`,
`transact_next_unlatched`), and the proofs of the statements about the Step and the host's transactions
(spec/40_step_cycle.md R101 to R111). -/

namespace Sys2Proof.Machine

/-! Fetch and Step. -/

/-- At the last address the first byte is read and the second is outside memory (R104). -/
theorem fetch_of_last {s : State} (h : s.pc.toNat = 4095) : fetch s = .fault (.outOfBoundsMemoryAccess 4096) := by
  rw [fetch, memRead_of_lt s (by omega), andThen_of_next, memRead_of_ge s (by omega), andThen_of_fault, h]

theorem fetch_of_ge {s : State} (h : 4096 ≤ s.pc.toNat) :
    fetch s = .fault (.outOfBoundsMemoryAccess s.pc.toNat) := by
  rw [fetch, memRead_of_ge s h, andThen_of_fault]

/-- Settles O5: PC is below the last address, at it, or outside memory. -/
theorem fetchReadsTwoBytesAndAdvances : Obligations.FetchReadsTwoBytesAndAdvances := by
  refine fun s => ⟨fun hlt => ?_, fetch_of_last, fetch_of_ge⟩
  have hpc : s.pc.toNat + 1 < 4096 := by omega
  exact ⟨_, _, fetch_completes hpc, wordOf_toNat _ _, pcPlus2_toNat hpc, changesOnly_setPc s _⟩

/-- Two bytes decode as the word they make (R56, R75). -/
theorem decodeWord_of_decode {hi lo : Byte} {bytes rest : List Byte} {i : Instr}
    (h : decode (hi :: lo :: bytes) = .ok (i, rest)) : decodeWord (wordOf hi lo) = .ok i := by
  simp only [decode] at h
  split at h
  · next hword => cases h; exact hword
  · cases h

theorem runWord_of_ok {op : Word} {i : Instr} (h : decodeWord op = .ok i) (s : State) : runWord op s = exec i s := by
  simp only [runWord, h]

/-- Settles O6: the Step runs the word of its two bytes, which decodes to `i`. -/
theorem stepRunsTheDecodedInstruction : Obligations.StepRunsTheDecodedInstruction := by
  intro s i rest hrunning hpc hdecode
  exact (step_eq_runWord hrunning (by omega)).trans (runWord_of_ok (decodeWord_of_decode hdecode) s.pcPlus2)

/-! Reads. -/

/-- A read as a transaction needs a running state and leaves it as it is (R108, R111). -/
theorem read_next_iff {α : Type} {s t : State} (a : α) :
    andThen (requireRunning s (.next a)) (fun _ => .next s) = .next t ↔ s.fault = none ∧ s = t := by
  simp [andThen_next_iff, requireRunning_next_iff]

/-- Settles O27: a read of a running state answers its value, and its transaction the state itself. -/
theorem readsReturnStateAndChangeNothing : Obligations.ReadsReturnStateAndChangeNothing := by
  intro par s hrunning
  have hread {α : Type} (a : α) : requireRunning s (.next a) = .next a := requireRunning_none _ hrunning
  have hkeep {α : Type} (a : α) : andThen (requireRunning s (.next a)) (fun _ => .next s) = .next s :=
    (read_next_iff a).2 ⟨hrunning, rfl⟩
  exact ⟨hread s.pix, hread s.dt, hread s.st, hkeep s.pix, hkeep s.dt, hkeep s.st⟩

/-! The invariant under every transaction. -/

theorem Inv.setKey {s : State} (h : Inv s) (k : Key) (down : Bool) : Inv (s.setKey k down) := { h with }

/-- Every transaction that completes keeps the invariant; Reset does not need it before. -/
theorem transact_keeps_inv {par : Config.Params} {x : Transaction} {s t : State} (hs : Inv s)
    (h : transact par x s = .next t) : Inv t := by
  cases x with
  | reset program => exact resetMachine_inv h
  | step => exact stepKeepsTheInvariant s t hs h
  | tick =>
    obtain ⟨-, rfl⟩ := tick_next_iff.1 h
    exact (hs.setDt _).setSt _
  | keyEvent k down =>
    obtain ⟨-, ⟨-, rfl⟩ | ⟨j, -, rfl⟩⟩ := keyEvent_next_iff.1 h
    · exact hs
    · exact hs.setKey j down
  | readScreen | readDt | readSt =>
    obtain ⟨-, rfl⟩ := (read_next_iff _).1 h
    exact hs

/-- Settles O14: from a state that meets the invariant every transaction keeps it, and a Reset builds one that does. -/
theorem transactionsKeepTheInvariant : Obligations.TransactionsKeepTheInvariant := by
  rintro par x s t h (hs | ⟨program, rfl⟩)
  · exact transact_keeps_inv hs h
  · exact resetMachine_inv h

/-- Settles O16: by induction on how the state is reached. -/
theorem reachableStatesMeetTheInvariant : Obligations.ReachableStatesMeetTheInvariant := by
  intro par s hs
  induction hs with
  | reset h => exact resetMachine_inv h
  | move _ h ih => exact transact_keeps_inv ih h

/-! The latch along a schedule (R111). -/

/-- No transaction that completes leaves a fault latched: Reset clears the latch, any other one found it clear and
does not write it. -/
theorem transact_next_unlatched {par : Config.Params} {x : Transaction} {s t : State}
    (h : transact par x s = .next t) : t.fault = none := by
  cases x with
  | reset program => exact (resetMachine_inv h).running
  | step =>
    obtain ⟨hrunning, -, i, -, hexec⟩ := step_next_iff.1 h
    obtain ⟨-, hfault, -⟩ := onlyTheListedInstructionsWriteEachPiece i _ t hexec
    exact hfault.trans hrunning
  | tick =>
    obtain ⟨hrunning, rfl⟩ := tick_next_iff.1 h
    exact hrunning
  | keyEvent k down =>
    obtain ⟨hrunning, ⟨-, rfl⟩ | ⟨j, -, rfl⟩⟩ := keyEvent_next_iff.1 h <;> exact hrunning
  | readScreen | readDt | readSt =>
    obtain ⟨hrunning, rfl⟩ := (read_next_iff _).1 h
    exact hrunning

theorem runSchedule_cons_next_iff {par : Config.Params} {x : Transaction} {xs : List Transaction} {s t : State} :
    runSchedule par (x :: xs) s = .next t ↔ ∃ u, transact par x s = .next u ∧ runSchedule par xs u = .next t :=
  andThen_next_iff

theorem runSchedule_next_unlatched {par : Config.Params} {schedule : List Transaction} {s t : State}
    (hs : s.fault = none) (h : runSchedule par schedule s = .next t) : t.fault = none := by
  induction schedule generalizing s with
  | nil => cases h; exact hs
  | cons x xs ih =>
    obtain ⟨u, hu, ht⟩ := runSchedule_cons_next_iff.1 h
    exact ih (transact_next_unlatched hu) ht

/-- Settles O11: a schedule that completes latches no fault; from a faulted state the empty one ends there, and
one whose first transaction is not Reset does not complete. -/
theorem faultedStateIsNeverTheEndOfAGoodRun : Obligations.FaultedStateIsNeverTheEndOfAGoodRun := by
  refine ⟨fun par schedule s t hs h => runSchedule_next_unlatched hs h, ?_⟩
  rintro par endOfRun schedule s t f hs ⟨hrun, ht, -⟩
  cases schedule with
  | nil =>
    cases hrun
    cases hs.symm.trans ht
  | cons x rest =>
    obtain ⟨u, hu, -⟩ := runSchedule_cons_next_iff.1 hrun
    by_contra hnot
    have hx : ∀ p, x ≠ .reset p := fun p hp => hnot ⟨p, rest, by rw [hp]⟩
    cases hs.symm.trans (transact_next_running hx hu)

end Sys2Proof.Machine
end

section
/-! SUPPORT. The pattern of an instruction as the number it encodes (`encodes_of_wordNumber`), where a skip, a call and a
return leave the state, and the proofs of the statements about control transfer and skips
(spec/41_flow_and_skip.md R117 to R125). -/

namespace Sys2Proof.Machine

/-- The number an instruction's pattern reads as encodes it (R80, R88). -/
theorem encodes_of_wordNumber {i : Instr} {n : Nat} (hwf : i.wf = true) (hnumber : Laws.EncodedNumber.Statement i)
    (hn : wordNumber i = n) : Encodes n i := by
  have hword : BitVec.ofNat 16 n = encodeWord i := by
    rw [← hn, ← hnumber hwf, BitVec.ofNat_toNat, BitVec.setWidth_eq]
  rw [Encodes, hword]
  exact decodeWord_encodeWord hwf

/-! Jumps. -/

/-- Settles O28: the answer is the state with PC at the target. -/
theorem jumpSetsPc : Obligations.JumpSetsPc := fun nnn s =>
  ⟨encodes_of_wordNumber rfl (Laws.EncodedNumber.jp nnn) rfl, _, rfl, address_toNat nnn, changesOnly_setPc s _⟩

/-- Settles O36: the sum fits in 16 bits, so PC holds it exactly. -/
theorem jumpPlusV0 : Obligations.JumpPlusV0 := fun nnn s =>
  ⟨encodes_of_wordNumber rfl (Laws.EncodedNumber.jpV0 nnn) rfl, _, rfl, offsetTarget_toNat nnn _,
    changesOnly_setPc s _⟩

/-- At a self-jump the next Step fetches 1nnn with nnn the value of PC. -/
theorem AtSelfJump.fetches {s : State} (h : AtSelfJump s) : ∃ nnn, nnn.toNat = s.pc.toNat ∧ Fetches s (.jp nnn) := by
  obtain ⟨hrunning, hpc, hword⟩ := h
  have hnnn : (BitVec.ofNat 12 s.pc.toNat).toNat = s.pc.toNat := by
    rw [BitVec.toNat_ofNat]
    omega
  exact ⟨_, hnnn, hrunning, hpc,
    encodes_of_wordNumber rfl (Laws.EncodedNumber.jp _) ((congrArg (0x1000 + ·) hnnn).trans hword.symm)⟩

/-- Settles O29: the jump puts PC back to where the fetch advanced it from. -/
theorem selfJumpChangesNothing : Obligations.SelfJumpChangesNothing := by
  intro s h
  obtain ⟨nnn, hnnn, hfetches⟩ := h.fetches
  have htarget : address nnn = s.pc := BitVec.eq_of_toNat_eq ((address_toNat nnn).trans hnnn)
  calc step s = exec (.jp nnn) s.pcPlus2 := step_of_fetches hfetches
    _ = .next (s.setPc (address nnn)) := rfl
    _ = .next s := by rw [setPc_eq s htarget]

/-! Skips. -/

theorem skipIf_pc_toNat (c : Bool) (s : State) :
    (skipIf c s).pc.toNat = if c = true then (s.pc.toNat + 2) % 65536 else s.pc.toNat := by
  cases c with
  | false => rfl
  | true => exact BitVec.toNat_add s.pc 2

theorem skipIf_beq_pc_toNat (a b : Byte) (s : State) :
    (skipIf (a == b) s).pc.toNat = if a = b then (s.pc.toNat + 2) % 65536 else s.pc.toNat := by
  simp only [skipIf_pc_toNat, beq_iff_eq]

theorem skipIf_bne_pc_toNat (a b : Byte) (s : State) :
    (skipIf (a != b) s).pc.toNat = if a = b then s.pc.toNat else (s.pc.toNat + 2) % 65536 := by
  simp only [skipIf_pc_toNat, bne_iff_ne, ne_eq, ite_not]

/-- Settles O34: each is a skip on its comparison of Vx with the immediate. -/
theorem skipsOnImmediate : Obligations.SkipsOnImmediate := by
  intro x kk s
  refine ⟨encodes_of_wordNumber rfl (Laws.EncodedNumber.seByte x kk) rfl,
    encodes_of_wordNumber rfl (Laws.EncodedNumber.sneByte x kk) rfl, ?_, ?_⟩
  · exact ⟨skipIf (s.getV x == kk) s, rfl, changesOnly_skipIf _ s, skipIf_beq_pc_toNat _ _ s⟩
  · exact ⟨skipIf (s.getV x != kk) s, rfl, changesOnly_skipIf _ s, skipIf_bne_pc_toNat _ _ s⟩

/-- Settles O35: each is a skip on its comparison of Vx with Vy. -/
theorem skipsOnRegister : Obligations.SkipsOnRegister := by
  intro x y s
  refine ⟨encodes_of_wordNumber rfl (Laws.EncodedNumber.seReg x y) rfl,
    encodes_of_wordNumber rfl (Laws.EncodedNumber.sneReg x y) rfl, ?_, ?_⟩
  · exact ⟨skipIf (s.getV x == s.getV y) s, rfl, changesOnly_skipIf _ s, skipIf_beq_pc_toNat _ _ s⟩
  · exact ⟨skipIf (s.getV x != s.getV y) s, rfl, changesOnly_skipIf _ s, skipIf_bne_pc_toNat _ _ s⟩

/-! Calls and returns. -/

theorem setStack_slot_same (s : State) (j : Fin 16) (w : Word) : (s.setStack j w).stack[j.val] = w :=
  (setStack_slot s j j w).trans (if_pos rfl)

/-- 2nnn with slot `j` the first free one (R115, R120). -/
theorem exec_call_of_free {s : State} {j : Fin 16} (hj : j.val = s.sp.toNat) (nnn : BitVec 12) :
    exec (.call nnn) s = .next (((s.setStack j s.pc).setSp (s.sp + 1)).setPc (address nnn)) := by
  have hslot : (⟨s.sp.toNat, hj ▸ j.isLt⟩ : Fin 16) = j := Fin.ext hj.symm
  have hpush := push_of_lt (a := s.pc) (s := s) (hj ▸ j.isLt)
  rw [hslot] at hpush
  exact andThen_congr hpush _

/-- 00EE with slot `j` the last live one (R116, R118). -/
theorem exec_ret_of_live {s : State} {j : Fin 16} (hj : j.val + 1 = s.sp.toNat) :
    exec .ret s = .next ((s.setSp (s.sp - 1)).setPc s.stack[j.val]) := by
  have hslot : s.sp.toNat - 1 = j.val := by omega
  have hpop := pop_of_pos (s := s) (by omega) (by omega)
  simp only [hslot] at hpop
  exact andThen_congr hpop _

/-- Settles O30: a free slot takes the advanced PC; with none free the push fails before any write. -/
theorem callPushesTheAdvancedPc : Obligations.CallPushesTheAdvancedPc := by
  intro nnn s
  refine ⟨encodes_of_wordNumber rfl (Laws.EncodedNumber.call nnn) rfl, fun j hj => ?_, fun hfull => ?_⟩
  · refine ⟨_, exec_call_of_free hj nnn, ?_, ?_, address_toNat nnn, ?_⟩
    · exact setStack_slot_same s j s.pc
    · rw [setPc_sp, setSp_sp]
      bv_omega
    · exact ((changesOnly_setStack s j s.pc).mono fun _ h => .inr (.inr h)).trans
        (((changesOnly_setSp _ _).mono fun _ h => .inr (.inl h)).trans ((changesOnly_setPc _ _).mono fun _ h => .inl h))
  · exact andThen_congr (push_of_full (BitVec.eq_of_toNat_eq hfull)) _

/-- Settles O31: a live slot is popped and only read; with none live the pop fails. -/
theorem returnPopsPc : Obligations.ReturnPopsPc := by
  intro s
  refine ⟨encodes_of_wordNumber rfl Laws.EncodedNumber.ret rfl, fun j hj => ?_, fun hempty => ?_⟩
  · refine ⟨_, exec_ret_of_live hj, rfl, ?_, ?_⟩
    · rw [setPc_sp, setSp_sp]
      bv_omega
    · exact ((changesOnly_setSp s _).mono fun _ h => .inr h).trans ((changesOnly_setPc _ _).mono fun _ h => .inl h)
  · exact andThen_congr (pop_of_empty (BitVec.eq_of_toNat_eq hempty)) _

/-- 00EE, at any PC, takes back a push of `a` into slot `j`: the depth is as before it and PC is `a` (R118, R120). -/
theorem exec_ret_of_pushed {s : State} {j : Fin 16} (hj : j.val = s.sp.toNat) (a w : Word) :
    exec .ret (((s.setStack j a).setSp (s.sp + 1)).setPc w) = .next ((s.setStack j a).setPc a) := by
  have hlive : j.val + 1 = (s.sp + 1).toNat := by bv_omega
  have hdepth : s.sp + 1 - 1 = s.sp := by bv_omega
  calc exec .ret (((s.setStack j a).setSp (s.sp + 1)).setPc w)
      = .next (((s.setStack j a).setSp (s.sp + 1 - 1)).setPc (s.setStack j a).stack[j.val]) := exec_ret_of_live hlive
    _ = .next ((s.setStack j a).setPc a) := by rw [hdepth, setStack_slot_same]; rfl

/-- A running state with the bytes of 00EE at PC fetches it. -/
theorem fetches_ret {s : State} (hrunning : s.fault = none) (hpc : s.pc.toNat < 4095)
    (hhi : Memory.peek s.mem s.pc.toNat = 0x00) (hlo : Memory.peek s.mem (s.pc.toNat + 1) = 0xEE) :
    Fetches s .ret := by
  refine ⟨hrunning, by omega, ?_⟩
  rw [wordAtPc, hhi, hlo]
  exact encodes_of_wordNumber rfl Laws.EncodedNumber.ret rfl

/-- Settles O33: the call pushes the PC its fetch advanced, the return at the target takes that push back. -/
theorem callThenReturnComesBack : Obligations.CallThenReturnComesBack := by
  intro nnn s j hfetches hj hnnn hhi hlo
  have hcall := (step_of_fetches hfetches).trans (exec_call_of_free (s := s.pcPlus2) hj nnn)
  obtain ⟨hrunning, hpc, -⟩ := hfetches
  have hret : Fetches (((s.pcPlus2.setStack j s.pcPlus2.pc).setSp (s.sp + 1)).setPc (address nnn)) .ret :=
    fetches_ret hrunning (by rwa [setPc_pc, address_toNat]) (by rwa [setPc_pc, address_toNat])
      (by rwa [setPc_pc, address_toNat])
  refine ⟨(s.pcPlus2.setStack j s.pcPlus2.pc).setPc s.pcPlus2.pc, ?_, pcPlus2_toNat hpc, ?_⟩
  · calc andThen (step s) step
        = step (((s.pcPlus2.setStack j s.pcPlus2.pc).setSp (s.sp + 1)).setPc (address nnn)) := by rw [hcall]; rfl
      _ = _ := (step_of_fetches hret).trans (exec_ret_of_pushed (s := s.pcPlus2) hj _ _)
  · exact ((changesOnly_setPc s _).mono fun _ h => .inl h).trans
      (((changesOnly_setStack _ j _).mono fun _ h => .inr h).trans ((changesOnly_setPc _ _).mono fun _ h => .inl h))

end Sys2Proof.Machine
end

section
/-! SUPPORT. The flag byte and the 8-bit results as numbers, what an instruction that writes VF and then Vx leaves
(`completes_of_setFlagThen`), and the proofs of the statements about the register instructions
(spec/42_register_alu.md R135 to R150). -/

namespace Sys2Proof.Machine

/-! Instructions that write Vx alone. -/

/-- Settles O37: the answer is the state with Vx set to the sampled operand. -/
theorem loadsIntoRegister : Obligations.LoadsIntoRegister := fun x y kk s =>
  ⟨encodes_of_wordNumber rfl (Laws.EncodedNumber.ldByte x kk) rfl,
    encodes_of_wordNumber rfl (Laws.EncodedNumber.ldReg x y) rfl,
    ⟨s.setV x kk, rfl, setV_getV_same s x kk, changesOnly_setV s x kk⟩,
    ⟨s.setV x (s.getV y), rfl, setV_getV_same s x _, changesOnly_setV s x _⟩⟩

/-- Settles O38: the sum is formed in 8 bits, and VF is a piece like any other of the frame. -/
theorem addImmediateWrapsWithoutFlag : Obligations.AddImmediateWrapsWithoutFlag := by
  intro x kk s
  refine ⟨encodes_of_wordNumber rfl (Laws.EncodedNumber.addByte x kk) rfl,
    s.setV x (s.getV x + kk), rfl, ?_, changesOnly_setV s x _⟩
  rw [setV_getV_same]
  exact BitVec.toNat_add _ _

/-- Settles O39: Vx alone is written, and a bit of it is that operation on the operands' bits. -/
theorem logicWorksBitByBitAndKeepsVF : Obligations.LogicWorksBitByBitAndKeepsVF := by
  intro x y s
  refine ⟨encodes_of_wordNumber rfl (Laws.EncodedNumber.orReg x y) rfl,
    encodes_of_wordNumber rfl (Laws.EncodedNumber.andReg x y) rfl,
    encodes_of_wordNumber rfl (Laws.EncodedNumber.xorReg x y) rfl,
    ⟨_, rfl, changesOnly_setV s x (s.getV x ||| s.getV y), fun k _ => ?_⟩,
    ⟨_, rfl, changesOnly_setV s x (s.getV x &&& s.getV y), fun k _ => ?_⟩,
    ⟨_, rfl, changesOnly_setV s x (s.getV x ^^^ s.getV y), fun k _ => ?_⟩⟩
  · rw [setV_getV_same, BitVec.getLsbD_or]
  · rw [setV_getV_same, BitVec.getLsbD_and]
  · rw [setV_getV_same, BitVec.getLsbD_xor]

/-- Settles O43: the draw is counted, then Vx takes the masked byte of the count before it. -/
theorem randomByteIsMasked : Obligations.RandomByteIsMasked := by
  intro x kk s
  refine ⟨encodes_of_wordNumber rfl (Laws.EncodedNumber.rnd x kk) rfl,
    s.drawn.setV x (s.randomByte &&& kk), rfl, fun k _ => ?_, rfl, ?_⟩
  · rw [setV_getV_same, BitVec.getLsbD_and, State.randomByte]
  · exact ((changesOnly_setDraws s _).mono fun _ h => .inr h).trans
      ((changesOnly_setV s.drawn x _).mono fun _ h => .inl h)

/-! Instructions that write VF and then Vx. -/

theorem flagByte_toNat (f : Bool) : (flagByte f).toNat = f.toNat := by
  cases f <;> rfl

/-- What R136 leaves of the two writes: Vx holds the result, and VF the flag where Vx is not VF itself. -/
theorem completes_of_setFlagThen {i : Instr} {s : State} {f : Bool} {x : Reg} {b : Byte} {result flag : Nat}
    (hexec : exec i s = .next (setFlagThen s f x b)) (hresult : b.toNat = result) (hflag : f.toNat = flag) :
    ∃ t, exec i s = .next t ∧ (t.getV x).toNat = result ∧ (x ≠ 15 → (t.getV 15).toNat = flag)
      ∧ ChangesOnly (fun p => p = .v x ∨ p = .v 15) s t := by
  refine ⟨_, hexec, ?_, fun hx => ?_, changesOnly_setFlagThen s f x b⟩
  · rw [setFlagThen_getV, if_pos rfl, hresult]
  · rw [setFlagThen_getV, if_neg hx.symm, if_pos rfl, flagByte_toNat, hflag]

theorem carry_toNat (a b : Byte) : (carry a b).toNat = if 255 < a.toNat + b.toNat then 1 else 0 :=
  Bool.cond_decide _ 1 0

theorem isAbove_toNat (a b : Byte) : (isAbove a b).toNat = if b.toNat < a.toNat then 1 else 0 :=
  Bool.cond_decide _ 1 0

theorem lowBit_toNat (a : Byte) : (lowBit a).toNat = a.toNat % 2 := by
  calc (lowBit a).toNat = a.toNat / 2 ^ 0 % 2 := Nat.toNat_testBit a.toNat 0
    _ = a.toNat % 2 := by omega

theorem highBit_toNat (a : Byte) : (highBit a).toNat = a.toNat / 128 := by
  calc (highBit a).toNat = a.toNat / 2 ^ 7 % 2 := Nat.toNat_testBit a.toNat 7
    _ = a.toNat / 128 := by omega

theorem byte_sub_toNat (a b : Byte) : (a - b).toNat = (a.toNat + 256 - b.toNat) % 256 := by
  rw [BitVec.toNat_sub]
  omega

theorem byte_shiftRight_one_toNat (a : Byte) : (a >>> 1).toNat = a.toNat / 2 := by
  rw [BitVec.toNat_ushiftRight, Nat.shiftRight_eq_div_pow, pow_one]

theorem byte_shiftLeft_one_toNat (a : Byte) : (a <<< 1).toNat = a.toNat * 2 % 256 := by
  rw [BitVec.toNat_shiftLeft, Nat.shiftLeft_eq, pow_one]

/-- Settles O40: the result is the 8-bit sum, the flag its carry. -/
theorem addRegistersCarries : Obligations.AddRegistersCarries := fun x y _ =>
  ⟨encodes_of_wordNumber rfl (Laws.EncodedNumber.addReg x y) rfl,
    completes_of_setFlagThen rfl (BitVec.toNat_add _ _) (carry_toNat _ _)⟩

/-- Settles O41: the same subtraction and comparison, with the operands exchanged in 8xy7. -/
theorem subtractionsFlagStrictlyGreater : Obligations.SubtractionsFlagStrictlyGreater := fun x y _ =>
  ⟨encodes_of_wordNumber rfl (Laws.EncodedNumber.sub x y) rfl,
    encodes_of_wordNumber rfl (Laws.EncodedNumber.subn x y) rfl,
    completes_of_setFlagThen rfl (byte_sub_toNat _ _) (isAbove_toNat _ _),
    completes_of_setFlagThen rfl (byte_sub_toNat _ _) (isAbove_toNat _ _)⟩

/-- Settles O42: a shift is a halving or a doubling of Vx, its flag the lowest or the highest bit. -/
theorem shiftsPutTheLostBitInVF : Obligations.ShiftsPutTheLostBitInVF := fun x y _ =>
  ⟨encodes_of_wordNumber rfl (Laws.EncodedNumber.shr x y) rfl,
    encodes_of_wordNumber rfl (Laws.EncodedNumber.shl x y) rfl,
    completes_of_setFlagThen rfl (byte_shiftRight_one_toNat _) (lowBit_toNat _),
    completes_of_setFlagThen rfl (byte_shiftLeft_one_toNat _) (highBit_toNat _)⟩

end Sys2Proof.Machine
end

section
/-! SUPPORT. The index results as numbers, what Fx65 loads (`exec_ldVxMem_completes`), and the proofs of
the statements about the index register and the memory blocks (spec/43_index_and_memory.md R160 to R166). -/

namespace Sys2Proof.Machine

/-! The index register. -/

theorem indexPlus_toNat (i : Word) (a : Byte) : (indexPlus i a).toNat = (i.toNat + a.toNat) % 65536 := by
  rw [indexPlus, zext16, BitVec.toNat_add, BitVec.toNat_ofNat]
  omega

/-- The largest product, 255 * 5, fits in 16 bits (R163). -/
theorem glyphAddress_toNat (a : Byte) : (glyphAddress a).toNat = 5 * a.toNat := by
  rw [glyphAddress, BitVec.toNat_ofNat]
  omega

/-- Settles O44: the answer is the state with I at the zero-extended operand. -/
theorem loadIndex : Obligations.LoadIndex := fun nnn s =>
  ⟨encodes_of_wordNumber rfl (Laws.EncodedNumber.ldI nnn) rfl, _, rfl, address_toNat nnn, changesOnly_setI s _⟩

/-- Settles O45: the sum is formed in 16 bits, and VF is a piece like any other of the frame. -/
theorem addToIndexWrapsWithoutFlag : Obligations.AddToIndexWrapsWithoutFlag := fun x s =>
  ⟨encodes_of_wordNumber rfl (Laws.EncodedNumber.addI x) rfl, _, rfl, indexPlus_toNat s.i (s.getV x),
    changesOnly_setI s _⟩

/-- Settles O46: the product fits in 16 bits, so I holds it exactly. -/
theorem glyphAddressIsFiveTimesVx : Obligations.GlyphAddressIsFiveTimesVx := fun x s =>
  ⟨encodes_of_wordNumber rfl (Laws.EncodedNumber.ldF x) rfl, _, rfl, glyphAddress_toNat (s.getV x),
    changesOnly_setI s _⟩

/-! Fx33. -/

theorem byte_ofNat_toNat {n : Nat} (h : n < 256) : (BitVec.ofNat 8 n).toNat = n :=
  (BitVec.toNat_ofNat n 8).trans (Nat.mod_eq_of_lt h)

/-- Settles O47: a block store of three bytes, which has room for all of them exactly up to I = 4093. -/
theorem decimalDigitsAreStored : Obligations.DecimalDigitsAreStored := by
  intro x s
  have hlength : (decimalDigits (s.getV x)).length = 3 := rfl
  refine ⟨encodes_of_wordNumber rfl (Laws.EncodedNumber.ldB x) rfl, fun hroom => ?_, fun hover => ?_⟩
  · obtain ⟨t, hexec, hstored, honly⟩ :=
      storeBytes_completes (a := s.i.toNat) (bs := decimalDigits (s.getV x)) (s := s) (by omega)
    refine ⟨t, hexec, ?_, ?_, ?_, honly⟩
    · exact (congrArg BitVec.toNat (hstored 0 (by omega))).trans (byte_ofNat_toNat (by omega))
    · exact (congrArg BitVec.toNat (hstored 1 (by omega))).trans (byte_ofNat_toNat (by omega))
    · exact (congrArg BitVec.toNat (hstored 2 (by omega))).trans (byte_ofNat_toNat (by omega))
  · exact storeBytes_stops (a := s.i.toNat) (List.cons_ne_nil _ _) (by omega)

/-! Fx55 and Fx65. -/

/-- Settles O48: what a Fx55 that completes has stored is known; it completes exactly when all its bytes have room. -/
theorem registersAreStoredAtI : Obligations.RegistersAreStoredAtI := by
  intro x s
  refine ⟨encodes_of_wordNumber rfl (Laws.EncodedNumber.ldMemVx x) rfl, fun hroom => ?_, fun hover => ?_⟩
  · obtain ⟨t, hexec, -, -⟩ := storeRegs_completes (k := 0) (count := x.val + 1) (s := s) (by omega) (by omega)
    obtain ⟨-, hstored, honly⟩ := storeRegs_of_exec_ldMemVx (x := x) hexec
    exact ⟨t, hexec, hstored, honly⟩
  · exact storeRegs_stops (k := 0) (Nat.succ_pos x.val) (by omega) (by omega)

/-- Fx65 inside memory loads V0 to Vx from the block at I and leaves everything else as it was (R166). -/
theorem exec_ldVxMem_completes {x : Reg} {s : State} (h : s.i.toNat + x.val ≤ 4095) :
    ∃ t, exec (.ldVxMem x) s = .next t
      ∧ (∀ r : Reg, r ≤ x → t.getV r = Memory.peek s.mem (s.i.toNat + r.val))
      ∧ ChangesOnly (fun p => ∃ r : Reg, r ≤ x ∧ p = .v r) s t := by
  obtain ⟨t, hexec, hloaded, honly⟩ :=
    loadRegs_completes (k := 0) (count := x.val + 1) (s := s) (by omega) (by omega)
  refine ⟨t, hexec, fun r hr => hloaded r (Nat.zero_le _) (by rw [Fin.le_def] at hr; omega), honly.mono ?_⟩
  rintro p ⟨r, -, hr, rfl⟩
  exact ⟨r, by rw [Fin.le_def]; omega, rfl⟩

/-- Settles O49: the load completes exactly when all its bytes are inside memory. -/
theorem registersAreLoadedFromI : Obligations.RegistersAreLoadedFromI := fun x s =>
  ⟨encodes_of_wordNumber rfl (Laws.EncodedNumber.ldVxMem x) rfl, exec_ldVxMem_completes,
    fun hover => loadRegs_stops (k := 0) (Nat.succ_pos x.val) (by omega) (by omega)⟩

/-- Settles O50: the store left I as it was and stayed inside memory, so the load completes and reads the cells it wrote. -/
theorem storedRegistersLoadBack : Obligations.StoredRegistersLoadBack := by
  intro x s t v hstore
  obtain ⟨hroom, hstored, honly⟩ := storeRegs_of_exec_ldMemVx hstore
  have hi : t.i = s.i := honly .i (by simp)
  obtain ⟨u, hexec, hloaded, hframe⟩ :=
    exec_ldVxMem_completes (x := x) (s := { t with v := v }) (by rw [hi]; omega)
  refine ⟨u, hexec, fun r hr => ?_, fun r hr => ?_⟩
  · calc u.getV r = Memory.peek t.mem (t.i.toNat + r.val) := hloaded r hr
      _ = Memory.peek t.mem (s.i.toNat + r.val) := by rw [hi]
      _ = s.getV r := hstored r hr
  · refine hframe (.v r) ?_
    rintro ⟨q, hq, hrq⟩
    cases hrq
    exact absurd hr (not_lt.2 hq)

end Sys2Proof.Machine
end

section
/-! SUPPORT. The grid and the collision flag `DrawSprite` leaves, in the words of R178, what Dxyn does with them
(`exec_drw_of_le`), and the proofs of the statements about the screen (spec/44_screen.md R175 to R182). -/

namespace Sys2Proof.Machine

/-- Settles O53: the answer is the state with the blank screen. -/
theorem clearScreenClearsEveryPixel : Obligations.ClearScreenClearsEveryPixel := fun s =>
  ⟨encodes_of_wordNumber rfl Laws.EncodedNumber.cls rfl, s.setPix Screen.blank, rfl, get_blank,
    changesOnly_setPix s _⟩

/-! What `DrawSprite` leaves; a sprite of at most 32 rows meets no pixel twice. -/

theorem drawSprite_get_of_covered {x y : Byte} {bytes : List Byte} (p : Screen) {r : Fin 32} {c : Fin 64}
    (hlen : bytes.length ≤ 32) (h : Covered x y bytes r c) :
    Screen.get (drawSprite x y bytes p).1 r c = !Screen.get p r c := by
  rw [drawSprite_eq, toggleAll_get_of_mem _ (spritePositions_nodup x y 0 bytes hlen)
    (mem_spritePositions_iff_covered.2 h)]

theorem drawSprite_get_of_not_covered {x y : Byte} {bytes : List Byte} (p : Screen) {r : Fin 32} {c : Fin 64}
    (h : ¬ Covered x y bytes r c) : Screen.get (drawSprite x y bytes p).1 r c = Screen.get p r c := by
  rw [drawSprite_eq, toggleAll_get_of_not_mem _ (mt mem_spritePositions_iff_covered.1 h)]

theorem drawSprite_flag_iff {x y : Byte} {bytes : List Byte} {p : Screen} (hlen : bytes.length ≤ 32) :
    (drawSprite x y bytes p).2 = true ↔ ∃ r c, Covered x y bytes r c ∧ Screen.get p r c = true := by
  rw [drawSprite_eq, toggleAll_flag _ (spritePositions_nodup x y 0 bytes hlen)]
  simp only [Bool.false_eq_true, false_or, Prod.exists, mem_spritePositions_iff_covered]

/-- Settles O55: a pixel under a 1 bit is inverted twice, any other is left alone twice. -/
theorem drawingTwiceRestoresTheGrid : Obligations.DrawingTwiceRestoresTheGrid := by
  intro x y bytes p h15
  have hlen : bytes.length ≤ 32 := by omega
  refine ⟨screen_ext fun r c => ?_, drawSprite_flag_iff hlen⟩
  by_cases h : Covered x y bytes r c
  · rw [drawSprite_get_of_covered _ hlen h, drawSprite_get_of_covered _ hlen h, Bool.not_not]
  · rw [drawSprite_get_of_not_covered _ h, drawSprite_get_of_not_covered _ h]

/-! Dxyn. -/

theorem spriteBytes_length (s : State) (n : Nat) : (spriteBytes s n).length = n := by
  rw [spriteBytes, List.length_map, List.length_range]

theorem memReadRange_eq_spriteBytes {s : State} {n : Nat} (h : s.i.toNat + n ≤ 4096) :
    memReadRange s.i.toNat n s = .next (spriteBytes s n) := by
  rw [memReadRange_of_le s h, List.range'_eq_map_range, List.map_map]
  rfl

/-- A Dxyn inside memory leaves the grid and the flag that drawing its bytes gives (R180). -/
theorem exec_drw_of_le {x y : Reg} {n : Nat} {s : State} (h : s.i.toNat + n ≤ 4096) {d : Screen × Bool}
    (hd : drawSprite (s.getV x) (s.getV y) (spriteBytes s n) s.pix = d) :
    exec (.drw x y n) s = .next ((s.setPix d.1).setV vF (flagByte d.2)) := by
  rw [← hd]
  exact andThen_congr (memReadRange_eq_spriteBytes h) _

theorem exec_drw_of_gt {x y : Reg} {n : Nat} {s : State} (h : 4096 < s.i.toNat + n) :
    exec (.drw x y n) s = .fault (.outOfBoundsMemoryAccess (s.i.toNat + n - 1)) :=
  andThen_congr (memReadRange_of_gt s h) _

/-- Settles O54: VF is the flag's byte, so it is 1 or 0 as the flag is set or not; the frame is that of the two writes. -/
theorem drawInvertsThePixelsUnderOneBits : Obligations.DrawInvertsThePixelsUnderOneBits := by
  intro x y n s hn
  have hlen : (spriteBytes s n).length ≤ 32 := by rw [spriteBytes_length]; omega
  refine ⟨encodes_of_wordNumber (decide_eq_true hn) (Laws.EncodedNumber.drw x y n) rfl, fun hroom => ?_,
    exec_drw_of_gt⟩
  refine ⟨_, exec_drw_of_le hroom rfl, fun r c => drawSprite_get_of_covered s.pix hlen,
    fun r c => drawSprite_get_of_not_covered s.pix, fun hhit => ?_, fun hmiss => ?_, ?_⟩
  · rw [setV_getV_same, flagByte_toNat, (drawSprite_flag_iff hlen).2 hhit, Bool.toNat_true]
  · have hflag := Bool.eq_false_iff.2 (mt (drawSprite_flag_iff hlen).1 hmiss)
    rw [setV_getV_same, flagByte_toNat, hflag, Bool.toNat_false]
  · exact ((changesOnly_setPix s _).mono fun _ h => .inr h).trans ((changesOnly_setV _ vF _).mono fun _ h => .inl h)

end Sys2Proof.Machine
end

section
/-! SUPPORT. Which key a register value names (`isKeyDown_iff`), what Fx0A does with a key down and with none, and the
proofs of the statements about the keypad and the timer registers (spec/45_keys_and_timers.md R190 to R199). -/

namespace Sys2Proof.Machine

/-! Fx0A. -/

/-- The scan finds a key exactly when it is the highest one down (R195). -/
theorem scanKeys_some_iff {s : State} {k : Key} :
    scanKeys s = some k ↔ s.keyDown k = true ∧ ∀ j, k < j → s.keyDown j = false := by
  refine ⟨scanKeys_some, fun ⟨hdown, hhigher⟩ => ?_⟩
  cases hscan : scanKeys s with
  | none => cases hdown.symm.trans (scanKeys_none_iff.1 hscan k)
  | some j =>
    obtain ⟨hjdown, hjhigher⟩ := scanKeys_some hscan
    rcases lt_trichotomy j k with hlt | rfl | hlt
    · cases hdown.symm.trans (hjhigher k hlt)
    · rfl
    · cases hjdown.symm.trans (hhigher j hlt)

theorem keyNumber_toNat (k : Key) : (keyNumber k).toNat = k.val := byte_ofNat_toNat (by omega)

theorem pcMinus2_pc_toNat (s : State) : s.pcMinus2.pc.toNat = (s.pc.toNat + 65534) % 65536 :=
  (BitVec.toNat_sub s.pc 2).trans (congrArg (· % 65536) (Nat.add_comm _ _))

/-- Fx0A's move back undoes the fetch's advance, a wrap at 65536 included (R195, R196). -/
theorem pcPlus2_pcMinus2 (s : State) : s.pcPlus2.pcMinus2 = s := setPc_eq s (BitVec.add_sub_cancel s.pc 2)

theorem exec_ldVxK_of_highest {s : State} {k : Key} (x : Reg) (hdown : s.keyDown k = true)
    (hhigher : ∀ j, k < j → s.keyDown j = false) : exec (.ldVxK x) s = .next (s.setV x (keyNumber k)) := by
  have hscan : scanKeys s = some k := scanKeys_some_iff.2 ⟨hdown, hhigher⟩
  rw [exec, execLdVxK, hscan]

theorem exec_ldVxK_of_none {s : State} (x : Reg) (hup : ∀ k, s.keyDown k = false) :
    exec (.ldVxK x) s = .next s.pcMinus2 := by
  rw [exec, execLdVxK, scanKeys_none_iff.2 hup]

/-- Settles O57: the scan answers the highest key down, whose number fits in a byte, or none. -/
theorem keyWaitTakesTheHighestKey : Obligations.KeyWaitTakesTheHighestKey := by
  intro x s
  refine ⟨encodes_of_wordNumber rfl (Laws.EncodedNumber.ldVxK x) rfl, fun k hdown hhigher => ?_, fun hup => ?_⟩
  · refine ⟨_, exec_ldVxK_of_highest x hdown hhigher, ?_, changesOnly_setV s x _⟩
    rw [setV_getV_same, keyNumber_toNat]
  · exact ⟨_, exec_ldVxK_of_none x hup, pcMinus2_pc_toNat s, changesOnly_setPc s _⟩

/-- Settles O58: the fetch changes no key, and Fx0A puts PC back to where the fetch advanced it from. -/
theorem keyWaitStepChangesNothing : Obligations.KeyWaitStepChangesNothing := by
  intro x s hfetches hup
  calc step s = exec (.ldVxK x) s.pcPlus2 := step_of_fetches hfetches
    _ = .next s.pcPlus2.pcMinus2 := exec_ldVxK_of_none x hup
    _ = .next s := by rw [pcPlus2_pcMinus2]

/-! KeyEvent. -/

/-- Settles O26: in a running state the event is the write of the key it names, if it names one. -/
theorem keyEventSetsOneKey : Obligations.KeyEventSetsOneKey := by
  refine fun s down hrunning => ⟨fun k => ⟨s.setKey k down, ?_, ?_, changesOnly_setKey s k down⟩, ?_⟩
  · exact keyEvent_next_iff.2 ⟨hrunning, .inr ⟨k, rfl, rfl⟩⟩
  · rw [setKey_keyDown, if_pos rfl]
  · exact keyEvent_next_iff.2 ⟨hrunning, .inl ⟨rfl, rfl⟩⟩

/-! Ex9E and ExA1. -/

/-- A register value is a key that is down exactly when it is the number of one; 16 and more number none (R191). -/
theorem isKeyDown_iff {s : State} {b : Byte} :
    isKeyDown s b = true ↔ ∃ k : Key, k.val = b.toNat ∧ s.keyDown k = true := by
  by_cases hb : b.toNat < 16
  · rw [isKeyDown, dif_pos hb]
    refine ⟨fun hdown => ⟨⟨b.toNat, hb⟩, rfl, hdown⟩, fun ⟨k, hk, hdown⟩ => ?_⟩
    rwa [show (⟨b.toNat, hb⟩ : Key) = k from Fin.ext hk.symm]
  · rw [isKeyDown, dif_neg hb]
    exact ⟨nofun, fun ⟨k, hk, _⟩ => absurd (hk ▸ k.isLt) hb⟩

/-- Settles O56: both are a skip on the key's level, one on its being down and the other on its not being down. -/
theorem skipsOnKey : Obligations.SkipsOnKey := by
  intro x s
  refine ⟨encodes_of_wordNumber rfl (Laws.EncodedNumber.skp x) rfl,
    encodes_of_wordNumber rfl (Laws.EncodedNumber.sknp x) rfl,
    skipIf (isKeyDown s (s.getV x)) s, skipIf (!isKeyDown s (s.getV x)) s, rfl, rfl,
    changesOnly_skipIf _ s, changesOnly_skipIf _ s, fun hdown => ?_, fun hup => ?_⟩
  · rw [isKeyDown_iff.2 hdown]
    exact ⟨skipIf_pc_toNat true s, rfl⟩
  · rw [Bool.eq_false_iff.2 (mt isKeyDown_iff.1 hup)]
    exact ⟨rfl, skipIf_pc_toNat true s⟩

/-! The timer registers. -/

/-- Settles O59: each answers the state with its one destination set to the source's byte. -/
theorem timerMoves : Obligations.TimerMoves := fun x s =>
  ⟨encodes_of_wordNumber rfl (Laws.EncodedNumber.ldVxDt x) rfl,
    encodes_of_wordNumber rfl (Laws.EncodedNumber.ldDtVx x) rfl,
    encodes_of_wordNumber rfl (Laws.EncodedNumber.ldStVx x) rfl,
    ⟨s.setV x s.dt, rfl, setV_getV_same s x _, changesOnly_setV s x _⟩,
    ⟨s.setDt (s.getV x), rfl, rfl, changesOnly_setDt s _⟩,
    ⟨s.setSt (s.getV x), rfl, rfl, changesOnly_setSt s _⟩⟩

end Sys2Proof.Machine
end

section
/-! SUPPORT. When each shared operation faults and with what (the lemmas `…_fault_iff`), the kinds a Step
can raise (`StepFaultKind`), and the proofs of the statements about faults and Ticks (spec/60_exceptions.md R211 to
R223). -/

namespace Sys2Proof.Machine

/-! When a shared operation faults. -/

/-- What follows an operation and always completes adds no fault to it. -/
theorem andThen_total_fault_iff {α β : Type} {x : Result α} {g : α → β} {f : Fault} :
    andThen x (fun a => .next (g a)) = .fault f ↔ x = .fault f := by
  simp [andThen_fault_iff]

theorem requireRunning_fault_iff {α : Type} {s : State} {x : Result α} {f : Fault} :
    requireRunning s x = .fault f ↔ s.fault = none ∧ x = .fault f := by
  cases h : s.fault with
  | none => simp [requireRunning_none x h]
  | some g => simp [requireRunning_some x h]

/-- An operation that stops with `g` under the condition `c` and completes without it has `c` as its cause of a fault. -/
theorem fault_iff_of_stops {α : Type} {x : Result α} {c : Prop} {f g : Fault} (hstops : c → x = .fault g)
    (hcompletes : ¬ c → ∃ t, x = .next t) : x = .fault f ↔ c ∧ f = g := by
  by_cases hc : c
  · simp [hstops hc, hc, eq_comm]
  · obtain ⟨t, hnext⟩ := hcompletes hc
    simp [hnext, hc]

theorem push_fault_iff {a : Word} {s : State} {f : Fault} :
    push a s = .fault f ↔ s.sp = 16 ∧ f = .stackOverflow := by
  by_cases hfull : s.sp = 16
  · simp [push_of_full hfull, hfull, eq_comm]
  · refine iff_of_false (fun h => ?_) fun h => hfull h.1
    rw [push, if_neg hfull] at h
    split at h <;> cases h

theorem pop_fault_iff {s : State} {f : Fault} : pop s = .fault f ↔ s.sp = 0 ∧ f = .stackUnderflow := by
  by_cases hempty : s.sp = 0
  · simp [pop_of_empty hempty, hempty, eq_comm]
  · refine iff_of_false (fun h => ?_) fun h => hempty h.1
    rw [pop, if_neg hempty] at h
    split at h <;> cases h

theorem memReadRange_fault_iff {start len : Nat} {s : State} {f : Fault} :
    memReadRange start len s = .fault f ↔
      4096 < start + len ∧ f = .outOfBoundsMemoryAccess (start + len - 1) :=
  fault_iff_of_stops (memReadRange_of_gt s) fun h => ⟨_, memReadRange_of_le s (Nat.not_lt.1 h)⟩

theorem storeBytes_fault_iff {a : Nat} {bs : List Byte} {s : State} {f : Fault} (hb : bs ≠ []) :
    storeBytes a bs s = .fault f ↔ 4096 < a + bs.length ∧ f = .outOfBoundsMemoryAccess (max a 4096) :=
  fault_iff_of_stops (storeBytes_stops hb) fun h => (storeBytes_completes (Nat.not_lt.1 h)).imp fun _ ht => ht.1

theorem storeRegs_fault_iff {k count : Nat} {s : State} {f : Fault} (hc : 0 < count) (hk : k + count ≤ 16) :
    storeRegs k count s = .fault f ↔
      4096 < s.i.toNat + k + count ∧ f = .outOfBoundsMemoryAccess (max (s.i.toNat + k) 4096) :=
  fault_iff_of_stops (storeRegs_stops hc hk) fun h => (storeRegs_completes hk (Nat.not_lt.1 h)).imp fun _ ht => ht.1

theorem loadRegs_fault_iff {k count : Nat} {s : State} {f : Fault} (hc : 0 < count) (hk : k + count ≤ 16) :
    loadRegs k count s = .fault f ↔
      4096 < s.i.toNat + k + count ∧ f = .outOfBoundsMemoryAccess (max (s.i.toNat + k) 4096) :=
  fault_iff_of_stops (loadRegs_stops hc hk) fun h => (loadRegs_completes hk (Nat.not_lt.1 h)).imp fun _ ht => ht.1

/-! Faults of the execute phase. -/

theorem execLdVxK_ne_fault (x : Reg) (s : State) (f : Fault) : execLdVxK x s ≠ .fault f := by
  unfold execLdVxK
  split <;> nofun

/-- Settles O9: an instruction faults when its one shared operation that can does; the others always complete. -/
theorem executeFaultsHaveExactlyTheListedCauses : Obligations.ExecuteFaultsHaveExactlyTheListedCauses := by
  intro i s f
  cases i with
  | ret => exact andThen_total_fault_iff.trans pop_fault_iff
  | call nnn => exact andThen_total_fault_iff.trans push_fault_iff
  | drw x y n => exact andThen_total_fault_iff.trans memReadRange_fault_iff
  | ldB x =>
    have hroom : 4096 < s.i.toNat + (decimalDigits (s.getV x)).length ↔ 4093 < s.i.toNat :=
      Nat.add_lt_add_iff_right (k := 3)
    exact (storeBytes_fault_iff (a := s.i.toNat) (List.cons_ne_nil _ _)).trans (and_congr_left' hroom)
  | ldMemVx x =>
    exact (storeRegs_fault_iff (k := 0) (Nat.succ_pos x.val) (by omega)).trans (and_congr_left' (by omega))
  | ldVxMem x =>
    exact (loadRegs_fault_iff (k := 0) (Nat.succ_pos x.val) (by omega)).trans (and_congr_left' (by omega))
  | ldVxK x => exact iff_of_false (execLdVxK_ne_fault x s f) not_false
  | cls | jp | seByte | sneByte | seReg | ldByte | addByte | ldReg | orReg | andReg | xorReg | addReg | sub | shr
  | subn | shl | sneReg | ldI | jpV0 | rnd | skp | sknp | ldVxDt | ldDtVx | ldStVx | addI | ldF =>
    exact iff_of_false nofun not_false

/-! Faults of a Step and of a transaction. -/

/-- The fault kinds a Step can end with: those of R212 and R213. -/
inductive StepFaultKind : Fault → Prop
  | outOfBounds (addr : Nat) : StepFaultKind (.outOfBoundsMemoryAccess addr)
  | overflow : StepFaultKind .stackOverflow
  | underflow : StepFaultKind .stackUnderflow

theorem FaultCause.kind {i : Instr} {s : State} {f : Fault} (h : FaultCause i s f) : StepFaultKind f := by
  cases i with
  | ret => obtain ⟨-, rfl⟩ := h; exact .underflow
  | call => obtain ⟨-, rfl⟩ := h; exact .overflow
  | drw | ldB | ldMemVx | ldVxMem => obtain ⟨-, rfl⟩ := h; exact .outOfBounds _
  | _ => exact h.elim

theorem fetch_fault_kind {s : State} {f : Fault} (h : fetch s = .fault f) : StepFaultKind f := by
  obtain ⟨hbelow, hlast, hbeyond⟩ := fetchReadsTwoBytesAndAdvances s
  rcases lt_trichotomy s.pc.toNat 4095 with hlt | heq | hgt
  · obtain ⟨op, t, hnext, -⟩ := hbelow hlt
    cases hnext.symm.trans h
  · cases (hlast heq).symm.trans h
    exact .outOfBounds _
  · cases (hbeyond hgt).symm.trans h
    exact .outOfBounds _

theorem runWord_fault_kind {op : Word} {s : State} {f : Fault} (h : runWord op s = .fault f) : StepFaultKind f := by
  cases hdecode : decodeWord op with
  | ok i =>
    rw [runWord_of_ok hdecode] at h
    exact ((executeFaultsHaveExactlyTheListedCauses i s f).1 h).kind
  | error e =>
    rw [runWord_of_error hdecode] at h
    cases h

theorem step_fault_kind {s : State} {f : Fault} (h : step s = .fault f) : StepFaultKind f := by
  obtain ⟨-, hcycle⟩ := requireRunning_fault_iff.1 h
  rcases andThen_fault_iff.1 hcycle with hfetch | ⟨r, -, hrun⟩
  · exact fetch_fault_kind hfetch
  · exact runWord_fault_kind hrun

theorem requireRunning_total_ne_fault {α : Type} (s : State) (a : α) (f : Fault) :
    requireRunning s (.next a) ≠ .fault f := by
  simp [requireRunning_fault_iff]

theorem keyEvent_ne_fault (k : Option Key) (down : Bool) (s : State) (f : Fault) : keyEvent k down s ≠ .fault f := by
  cases k with
  | none => exact requireRunning_total_ne_fault s _ f
  | some k => exact requireRunning_total_ne_fault s _ f

/-- Only Step and Reset fault; Reset for a program that is too long (R215, R242). -/
theorem transact_fault {par : Config.Params} {x : Transaction} {s : State} {f : Fault}
    (h : transact par x s = .fault f) :
    StepFaultKind f ∨ ∃ p, x = .reset p ∧ 3584 < p.length ∧ .programTooLarge p.length = f := by
  cases x with
  | reset p => exact .inr ⟨p, rfl, resetMachine_fault_iff.1 h⟩
  | step => exact .inl (step_fault_kind h)
  | tick => exact absurd h (requireRunning_total_ne_fault s _ f)
  | keyEvent k down => exact absurd h (keyEvent_ne_fault k down s f)
  | readScreen | readDt | readSt =>
    exact absurd (andThen_total_fault_iff.1 h) (requireRunning_total_ne_fault s _ f)

/-- Settles O8: neither fault is of a kind a Step raises, and Reset raises only the second. -/
theorem registerAndProgramFaultsAreRaisedByNoStep : Obligations.RegisterAndProgramFaultsAreRaisedByNoStep := by
  refine ⟨fun par x s h => ?_, fun k b s hk => ?_, fun par x s n => ⟨fun h => ?_, ?_⟩⟩
  · rcases transact_fault h with hkind | ⟨p, -, -, hp⟩
    · cases hkind
    · cases hp
  · exact ⟨dif_neg (Nat.not_lt.2 hk), dif_neg (Nat.not_lt.2 hk)⟩
  · rcases transact_fault h with hkind | ⟨p, rfl, hlong, hp⟩
    · cases hkind
    · cases hp
      exact ⟨p, rfl, rfl, hlong⟩
  · rintro ⟨p, rfl, rfl, hlong⟩
    exact resetMachine_fault_iff.2 ⟨hlong, rfl⟩

/-! The latch. -/

/-- After raising a fault the block holds what latching it leaves (R211). -/
theorem heldAfter_of_raised {par : Config.Params} {x : Transaction} {s : State} {f : Fault}
    (h : raised (transact par x s) = some f) : heldAfter par x s = some (latch f s) := by
  unfold heldAfter
  split
  · next t hnext =>
    rw [hnext] at h
    cases h
  · rw [h, Option.map_some]

/-- Settles O12: the state held is a latched one. -/
theorem raisedFaultIsLatched : Obligations.RaisedFaultIsLatched :=
  fun _ _ s f h => ⟨latch f s, heldAfter_of_raised h, latch_fault f s⟩

/-! Ticks. -/

theorem countDown_toNat (b : Byte) : (countDown b).toNat = b.toNat - 1 := by
  by_cases h : b = 0
  · rw [h]
    rfl
  · have := countDown_toNat_succ h
    omega

/-- Settles O24: a Tick of a running state answers the state with both timers counted down. -/
theorem tickCountsBothTimersDown : Obligations.TickCountsBothTimersDown := fun s hrunning =>
  ⟨_, tick_next_iff.2 ⟨hrunning, rfl⟩, countDown_toNat s.dt, countDown_toNat s.st,
    ((changesOnly_setDt s _).mono fun _ h => .inl h).trans ((changesOnly_setSt _ _).mono fun _ h => .inr h)⟩

/-- Settles O25: by induction on the number of Ticks; each leaves a running state for the rest. -/
theorem timersAfterTicks : Obligations.TimersAfterTicks := by
  intro par k s hrunning
  induction k generalizing s with
  | zero => exact ⟨s, rfl, rfl, rfl, .refl _ s⟩
  | succ k ih =>
    obtain ⟨t, htick, hdt, hst, honly⟩ := tickCountsBothTimersDown s hrunning
    obtain ⟨u, hrun, hdt', hst', honly'⟩ := ih t (transact_next_unlatched (par := par) (x := .tick) htick)
    exact ⟨u, runSchedule_cons_next_iff.2 ⟨t, htick, hrun⟩, by omega, by omega, honly.trans honly'⟩

end Sys2Proof.Machine
end
